-- ==== Sys2Proof/Word.lean ====
section
/-!
DEFINITION. The widths of PKTCODEC's data (00_scope.md R9): bytes, 16-bit fields, 32-bit command words. Everything is
unsigned; there is no signed quantity in the block.
-/

namespace Sys2Proof

/-- A byte, 8 bits, bit 0 the least significant (R9). -/
abbrev Byte := BitVec 8

/-- A `u16`: `SEQ`, `LEN`, `BLEN`, the Drive `speed`, the command word's `imm` (R9, R14, R16, R17, R49, R55). -/
abbrev Half := BitVec 16

/-- A command word or an operand word (R55). It is a value; the spec gives it no byte order (R34). -/
abbrev Word := BitVec 32

end Sys2Proof
end

