-- ==== Sys2Proof/Syntax.lean ====
section
/-!
DEFINITION. The operations of PKTCODEC as syntax: one constructor per row of the opcode table (30_encoding.md R56 for the
`CMD` rows, R52 for the `FRAME_FLAGS` rows), the host's requests that encode them (R55), and the names of what a decoder
can object to (R56).
-/

namespace Sys2Proof

/-- The two banks (10_state.md R13). -/
inductive BankId
  | tx
  | rx
deriving DecidableEq, Repr

/-- `CommandKind` (R52; 00_scope.md R11). -/
inductive CommandKind
  | drive
  | sleep
  | response
deriving DecidableEq, Repr

/-- The direction names of the Drive body (R49). -/
inductive Direction
  | forward
  | backward
  | right
  | left
deriving DecidableEq, Repr

/-- The operations (R56) and, last, the three command kinds on the wire (R52). An operand that a command word, its operand
word or its byte sequence carries is an argument (R55, R58). -/
inductive Instr
  /-- NEW bank (R61). -/
  | new (bank : BankId)
  /-- SETSEQ n (R62). -/
  | setseq (n : Half)
  /-- SETCMD kind (R63). -/
  | setcmd (kind : CommandKind)
  /-- SETACK v (R64). -/
  | setack (v : Bool)
  /-- SETBODY with the byte sequence `input` (R65). -/
  | setbody (input : List Byte)
  /-- SETLEN n (R66). -/
  | setlen (n : Half)
  /-- PACKDRIVE direction, duration, speed (R87). -/
  | packdrive (direction duration : Byte) (speed : Half)
  /-- ENCODE (R67). -/
  | encode
  /-- DECODE with the byte sequence `input` (R70). -/
  | decode (input : List Byte)
  /-- CKSUM with the byte sequence `input` (R76). -/
  | cksum (input : List Byte)
  /-- VERIFY with the byte sequence `input` (R77). -/
  | verify (input : List Byte)
  /-- GETSEQ bank (R80). -/
  | getseq (bank : BankId)
  /-- GETCMD bank (R81). -/
  | getcmd (bank : BankId)
  /-- GETACK bank (R82). -/
  | getack (bank : BankId)
  /-- GETBODY bank (R83). -/
  | getbody (bank : BankId)
  /-- GETLEN bank (R84). -/
  | getlen (bank : BankId)
  /-- GETCRC bank (R85). -/
  | getcrc (bank : BankId)
  /-- GETSTATUS (R86). -/
  | getstatus
  /-- UNPACKDRIVE bank (R88). -/
  | unpackdrive (bank : BankId)
  /-- FRAME.Drive: a flags byte whose command flags are `001`, with its ack and reserved bits (R45, R52). -/
  | frameDrive (ack : Bool) (reserved : BitVec 4)
  /-- FRAME.Response: command flags `010` (R45, R52). -/
  | frameResponse (ack : Bool) (reserved : BitVec 4)
  /-- FRAME.Sleep: command flags `100` (R45, R52). -/
  | frameSleep (ack : Bool) (reserved : BitVec 4)
deriving DecidableEq, Repr

/-- What the host hands the block in one transaction (R55; 92_eei_decisions.md D3, D23). A command comes with the operand
word and the byte sequence that accompany it; an operation that takes none does not look at them (log entry 5). A frame's
flags byte is handed over by itself, for the `FRAME_FLAGS` rows (log entry 6). -/
inductive Request
  | command (word operand : Word) (input : List Byte)
  | flagsByte (byte : Byte)
deriving DecidableEq, Repr

/-- Why a request is not an instruction (R52, R56, 93_implementation_defined.md U2, U6). -/
inductive DecodeError
  /-- `zero`, bits 22:16, is not 0. -/
  | reservedBitsSet
  /-- `op` is assigned to no operation. -/
  | unassignedOp
  /-- The operation does not accept the bank bit. -/
  | bankNotAccepted
  /-- `imm` must be 0 and is not. -/
  | immediateNotZero
  /-- SETCMD with a kind code of 3 or above. -/
  | kindCodeOutOfRange
  /-- SETACK with `imm` above 1. -/
  | ackOutOfRange
  /-- A flags byte with no command flag, or more than one, set: an error, not a refusal (R52, R81). -/
  | malformedFlags
deriving DecidableEq, Repr

end Sys2Proof
end

