-- ==== Sys2Proof/Machine/State.lean ====
section
/-!
DEFINITION. The state of PKTCODEC as plain data: the two banks with their body buffers and `RX.STATUS` (10_state.md R13 to
R22), and the model's own two lists, the requests the host has issued and the responses it has received (R20; 70 R117).
-/

namespace Sys2Proof.Machine

/-- The listed bytes of a body buffer, by offset (20_memory.md R28). An offset that is not listed has no value: a read of it
faults (10_state.md R19, R25; log entry 7). The canonical form is `Memory.wf` in Ops. -/
abbrev Memory := List Host.Cell

/-- One bank: a packet's registers and its body buffer (10_state.md R13). -/
structure Bank where
  /-- `SEQ` (R14). -/
  seq : Half
  /-- `DRIVE` (R15). -/
  drive : Bool
  /-- `RESP` (R15). -/
  resp : Bool
  /-- `SLEEP` (R15). -/
  sleep : Bool
  /-- `ACK` (R15). -/
  ack : Bool
  /-- `LEN`, stored, not derived from `BLEN` (R16, R21). -/
  len : Half
  /-- `BLEN` (R17). -/
  blen : Half
  /-- `CRC` (R18). -/
  crc : Byte
  /-- The body buffer, `TXBODY` or `RXBODY` (R19, R28). -/
  body : Memory
deriving DecidableEq, Repr

/-- The empty packet (10_state.md R25); no byte of the buffer has a value (R19). `LEN` is `MIN_FRAME`. -/
def Bank.empty : Bank :=
  { seq := 0, drive := false, resp := false, sleep := false, ack := false, len := 6, blen := 0, crc := 0, body := [] }

/-- The response codes (60_exceptions.md R91): `OK` and the four error kinds. -/
inductive Code
  | ok
  | invalidHeaderLength
  | truncatedOrOversizedFrame
  | checksumMismatch
  | malformedCommandFlags
deriving DecidableEq, Repr

/-- The record DECODE delivers (42_decode.md R72). -/
structure Record where
  seq : Half
  drive : Bool
  resp : Bool
  sleep : Bool
  ack : Bool
  len : Half
  blen : Half
  body : List Byte
  crc : Byte
  status : Byte
deriving DecidableEq, Repr

/-- The data of a response (30_encoding.md R57), each of the width its operation's rule gives it. -/
inductive Data
  /-- Nothing, or absent. -/
  | nothing
  /-- 0 or 1: VERIFY (R77), GETACK (R82). -/
  | bit (v : Bool)
  /-- A `u8`: CKSUM (R76), GETCRC (R85), GETSTATUS (R86). -/
  | u8 (v : Byte)
  /-- A `u16`: GETSEQ (R80), GETLEN (R84). -/
  | u16 (v : Half)
  /-- A command kind: GETCMD (R81) and the wire's command kinds (R52). -/
  | kind (k : CommandKind)
  /-- A byte sequence: ENCODE (R67), GETBODY (R83). -/
  | bytes (out : List Byte)
  /-- The Drive triple: UNPACKDRIVE (R88). -/
  | drive (direction duration : Byte) (speed : Half)
  /-- The record of DECODE (R72). -/
  | record (r : Record)
deriving DecidableEq, Repr

/-- A response `(code, data)` (30_encoding.md R57). -/
structure Response where
  code : Code
  data : Data
deriving DecidableEq, Repr

/-- The whole machine. -/
structure State where
  /-- Bank `TX` of ENC (R13). -/
  tx : Bank
  /-- Bank `RX` of DEC (R13). -/
  rx : Bank
  /-- `RX.STATUS` (R22). -/
  status : Byte
  /-- The model's own: the requests the host has issued and the block has not yet executed, oldest first (log entry 2). -/
  requests : List Request
  /-- The model's own: the responses returned so far, oldest first (70 R117; log entry 3). -/
  responses : List Response
deriving DecidableEq, Repr

/-- The machine right after reset: both banks the empty packet, `RX.STATUS = 0` (10_state.md R25; 70 R107). The host has
issued nothing and received nothing (log entries 2, 3). -/
def State.reset : State :=
  { tx := Bank.empty, rx := Bank.empty, status := 0, requests := [], responses := [] }

/-- Why the machine can stop with a fault. The four error kinds of the spec are response codes, not faults (R90). -/
inductive Fault
  /-- Raised by ENCODE, GETBODY and UNPACKDRIVE when a body byte below `BLEN` has no value. Safe: the spec makes every such
  access one inside the body (20_memory.md R31), and no state satisfying `Safety.Inv` raises it (log entry 7). -/
  | bodyByteAbsent
deriving DecidableEq, Repr

/-- Why an operation has no meaning (60_exceptions.md R101; 93_implementation_defined.md U1, U2, U5, U6, U11). All of them
are safe: the spec defines no response and no next state there (log entry 8). -/
inductive Refusal
  /-- Raised by `exec` for an instruction without a meaning in the model; none is left. Safe. -/
  | notModelled (mnemonic : String)
  /-- Raised by the step for a command word with bits 22:16 not 0 (R56, U6). Safe. -/
  | reservedBitsSet
  /-- Raised by the step for a command word with an unassigned `op` (R56, U6). Safe. -/
  | unassignedOp
  /-- Raised by the step for a command word with a bank bit its operation does not accept (R56, U6). Safe. -/
  | bankNotAccepted
  /-- Raised by the step for a command word with an immediate where there is none (R56, U6). Safe. -/
  | immediateNotZero
  /-- Raised by the step for SETCMD with kind code 3 or above (R63, U2). Safe. -/
  | kindCodeOutOfRange
  /-- Raised by the step for SETACK with 2 or above (R64, U2). Safe. -/
  | ackOutOfRange
  /-- Raised by SETBODY with more than `BODY_CAP` bytes (R65, U1). Safe. -/
  | bodyTooLong
  /-- Raised by UNPACKDRIVE on a bank with `BLEN` not 4 (R88, U5). Safe. -/
  | bodyNotDriveSize
deriving DecidableEq, Repr

/-- What an operation answers. -/
abbrev Result := Host.Outcome State Fault Refusal

end Sys2Proof.Machine
end

