-- ==== Sys2Proof/Machine/Flags.lean ====
section
/-!
DEFINITION. The flags byte of the wire (30_encoding.md R45), the command kind its flags select (R52, R81) and the bits of
`RX.STATUS` (10_state.md R22).
-/

namespace Sys2Proof.Machine

/-- `DRIVE + 2*RESP + 4*SLEEP + 8*ACK`, bits 7:4 zero (R45). -/
def flagsByte (drive resp sleep ack : Bool) : Byte :=
  BitVec.ofNat 8 (drive.toNat + 2 * resp.toNat + 4 * sleep.toNat + 8 * ack.toNat)

/-- `DRIVE = byte2[0]` (R45). -/
def driveBit (b : Byte) : Bool := b.getLsbD 0
/-- `RESP = byte2[1]` (R45). -/
def respBit (b : Byte) : Bool := b.getLsbD 1
/-- `SLEEP = byte2[2]` (R45). -/
def sleepBit (b : Byte) : Bool := b.getLsbD 2
/-- `ACK = byte2[3]` (R45). -/
def ackBit (b : Byte) : Bool := b.getLsbD 3

/-- How many command flags are set, 0 to 3 (R70, R78 f, R81). -/
def commandCount (drive resp sleep : Bool) : Nat := drive.toNat + resp.toNat + sleep.toNat

/-- The command kind, none when not exactly one command flag is set (R52, R81). ACK takes no part. -/
def kindOf (drive resp sleep : Bool) : Option CommandKind :=
  if commandCount drive resp sleep ≠ 1 then none
  else if drive then some .drive
  else if sleep then some .sleep
  else some .response

/-- The status after a DECODE whose structural checks passed: `0x01 + 4*crc_err + 8*flag_err` (R70). -/
def statusByte (crcErr flagErr : Bool) : Byte := BitVec.ofNat 8 (1 + 4 * crcErr.toNat + 8 * flagErr.toNat)

/-- The status after a DECODE that failed structurally: FRAME_ERR only (R70, R72). -/
def statusFrameErr : Byte := 0x02

/-- `STATUS.VALID` (R22). -/
def statusValid (st : Byte) : Bool := st.getLsbD 0
/-- `STATUS.FRAME_ERR` (R22). -/
def statusFrameErrBit (st : Byte) : Bool := st.getLsbD 1
/-- `STATUS.CRC_ERR` (R22). -/
def statusCrcErr (st : Byte) : Bool := st.getLsbD 2
/-- `STATUS.FLAG_ERR` (R22). -/
def statusFlagErr (st : Byte) : Bool := st.getLsbD 3

/-- The number of a response code (60_exceptions.md R91). -/
def Code.number : Code → Nat
  | .ok => 0
  | .invalidHeaderLength => 1
  | .truncatedOrOversizedFrame => 2
  | .checksumMismatch => 3
  | .malformedCommandFlags => 4

/-- The one code of a DECODE whose structural checks passed, by the priority of R71 and R98. -/
def decodeCode (crcErr flagErr : Bool) : Code :=
  if crcErr then .checksumMismatch else if flagErr then .malformedCommandFlags else .ok

end Sys2Proof.Machine
end

