-- ==== Sys2Proof/Config.lean ====
section
/-!
DEFINITION. The constants of the block (00_scope.md R7), and its one parameter `BODY_CAP` with the range and the default that
the spec gives it (R8; 92_eei_decisions.md D7; 93_implementation_defined.md U13).
Byte order and the Drive layout are decided by the spec and are no parameters (R32).
-/

namespace Sys2Proof.Config

/-- `SEQ_OFF` (R7). -/
def seqOff : Nat := 0
/-- `SEQ_SIZE` (R7). -/
def seqSize : Nat := 2
/-- `FLAGS_OFF` (R7). -/
def flagsOff : Nat := 2
/-- `FLAGS_SIZE` (R7). -/
def flagsSize : Nat := 1
/-- `LEN_OFF` (R7). -/
def lenOff : Nat := 3
/-- `LEN_SIZE` (R7). -/
def lenSize : Nat := 2
/-- `HEADER_SIZE`, derived from the field sizes (R7; 90_conflicts.md C1). -/
def headerSize : Nat := seqSize + flagsSize + lenSize
/-- `BODY_OFF = HEADER_SIZE` (R7). -/
def bodyOff : Nat := headerSize
/-- `CHECKSUM_SIZE` (R7). -/
def checksumSize : Nat := 1
/-- `MIN_FRAME = HEADER_SIZE + CHECKSUM_SIZE` (R7). -/
def minFrame : Nat := headerSize + checksumSize
/-- `MAX_FRAME`, the largest value of the 16-bit `length` field (R7). -/
def maxFrame : Nat := 65535
/-- `MAX_BODY = MAX_FRAME - MIN_FRAME` (R7). -/
def maxBody : Nat := maxFrame - minFrame
/-- `DRIVE_BODY_SIZE` (R7, R49). -/
def driveBodySize : Nat := 4

/-- The values `BODY_CAP`, the capacity in bytes of each body buffer, may have (R8): `DRIVE_BODY_SIZE` to `MAX_BODY`. -/
abbrev LegalBodyCap (cap : Nat) : Prop := driveBodySize ≤ cap ∧ cap ≤ maxBody

/-- The default of `BODY_CAP`: `MAX_BODY` (R8). -/
def defaultBodyCap : Nat := maxBody

/-- `BODY_CAP` of the instance that `exec` and `step` are: the default one. Every other instance is `execOn`, `stepOn` at its
own capacity (Machine/Instance.lean). Log entry 1. -/
def bodyCap : Nat := defaultBodyCap

/-- The longest frame an instance with body capacity `cap` accepts: `HEADER_SIZE + cap + CHECKSUM_SIZE` (R8). -/
def frameCapOf (cap : Nat) : Nat := cap + (headerSize + checksumSize)

/-- `FRAME_CAP` of the default instance (R8). -/
def frameCap : Nat := frameCapOf bodyCap

end Sys2Proof.Config
end

