-- ==== Sys2Proof/Machine/Operands.lean ====
section
/-!
DEFINITION. How multi-byte operands are assembled and laid out (30_encoding.md R43 to R51; 20_memory.md R32, R33): the
little-endian 16-bit fields, the frame header, the Drive body.
-/

namespace Sys2Proof.Machine

/-- `le16(v) = [v[7:0], v[15:8]]` (20_memory.md R33). -/
def le16 (v : Half) : List Byte := [v.extractLsb' 0 8, v.extractLsb' 8 8]

/-- `unle16([b0, b1]) = b0 + 256 * b1` (20_memory.md R33). -/
def unle16 (b0 b1 : Byte) : Half := BitVec.ofNat 16 (b0.toNat + 256 * b1.toNat)

/-- The header, in the fixed order sequence, flags byte, length (R43, R67). -/
def headerBytes (seq : Half) (flags : Byte) (len : Half) : List Byte := le16 seq ++ [flags] ++ le16 len

/-- The header fields of a frame (R43). -/
structure Header where
  seq : Half
  flags : Byte
  length : Half
deriving DecidableEq, Repr

/-- The header of a byte sequence that has at least `HEADER_SIZE` bytes (R44 to R46); nothing is read of a shorter one. -/
def parseHeader : List Byte → Option Header
  | b0 :: b1 :: b2 :: b3 :: b4 :: _ => some { seq := unle16 b0 b1, flags := b2, length := unle16 b3 b4 }
  | _ => none

/-- The Drive body: direction, duration, speed little-endian (R49, R87). -/
def driveBody (direction duration : Byte) (speed : Half) : List Byte := [direction, duration] ++ le16 speed

/-- The Drive fields of a 4-byte body (R49, R88). -/
def parseDrive : List Byte → Option (Byte × Byte × Half)
  | [b0, b1, b2, b3] => some (b0, b1, unle16 b2 b3)
  | _ => none

/-- The whole-frame length of a body of `n` bytes: `HEADER_SIZE + n + CHECKSUM_SIZE`, exact (R16, R21, R78 b). -/
def frameLength (n : Nat) : Nat := Config.headerSize + n + Config.checksumSize

/-- `dirname(c)`, no name for `c = 0` and `c >= 5` (R49, R89). The hardware does not evaluate it. -/
def dirname (c : Byte) : Option Direction :=
  match c.toNat with
  | 1 => some .forward
  | 2 => some .backward
  | 3 => some .right
  | 4 => some .left
  | _ => none

/-- `drive_in_contract(direction, duration, speed)` (R89). The hardware does not evaluate it. -/
def driveInContract (direction _duration : Byte) (speed : Half) : Bool :=
  decide (1 ≤ direction.toNat ∧ direction.toNat ≤ 4 ∧ 80 ≤ speed.toNat ∧ speed.toNat ≤ 100)

end Sys2Proof.Machine
end

