-- ==== Sys2Proof/Machine/Ops.lean ====
section
/-!
DEFINITION. The named operations over body buffers and registers, the two ways an operation ends (00_scope.md R10:
`return (OK, d)` and `raise E`), and what the step does with a request that is no instruction.
-/

namespace Sys2Proof.Machine

/-! ### Body buffers (20_memory.md R28, R29; 00_scope.md R10) -/

/-- The canonical form: offsets strictly rising. An unlisted offset has no value, so no entry can equal it. -/
def Memory.wf : Memory → Bool
  | [] => true
  | [_] => true
  | c :: d :: m => decide (c.1 < d.1) && Memory.wf (d :: m)

/-- The byte at an offset, if it has a value. -/
def Memory.readByte (m : Memory) (a : Nat) : Option Byte := m.lookup a

/-- `MemRead(space, addr, n)`: the `n` bytes from `addr` in increasing offset order (R10); none if one has no value. -/
def Memory.read (m : Memory) (addr : Nat) : Nat → Option (List Byte)
  | 0 => some []
  | n + 1 =>
    match Memory.readByte m addr, Memory.read m (addr + 1) n with
    | some b, some bs => some (b :: bs)
    | _, _ => none

/-- The cells of the byte sequence `v` laid from `addr` up. -/
def Memory.cells (addr : Nat) : List Byte → Memory
  | [] => []
  | b :: v => (addr, b) :: Memory.cells (addr + 1) v

/-- `MemWrite(space, addr, n, v)` with `n = len(v)` (R10): the bytes of `v` at `addr` and up, every other byte kept. -/
def Memory.write (m : Memory) (addr : Nat) (v : List Byte) : Memory :=
  m.filter (fun c => decide (c.1 < addr)) ++ Memory.cells addr v ++ m.filter (fun c => decide (addr + v.length ≤ c.1))

/-- Offsets `n` and above lose their value (10_state.md R19; log entry 7). -/
def Memory.forgetFrom (m : Memory) (n : Nat) : Memory := m.filter (fun c => decide (c.1 < n))

/-! ### Banks -/

/-- The body of a bank, `MemRead(buffer, 0, BLEN)` (41_encode.md R67; 44_access.md R83). -/
def Bank.bodyBytes (b : Bank) : Option (List Byte) := Memory.read b.body 0 b.blen.toNat

/-- Replaces the body of a bank whole: `MemWrite(buffer, 0, n, v)`, `BLEN <- n`, and the bytes at `n` and above are no part
of the packet (40_construct.md R65; 10_state.md R19). -/
def Bank.withBody (b : Bank) (v : List Byte) : Bank :=
  { b with blen := BitVec.ofNat 16 v.length, body := Memory.forgetFrom (Memory.write b.body 0 v) v.length }

/-- `SEQ <- v` (R14). -/
def Bank.withSeq (b : Bank) (v : Half) : Bank := { b with seq := v }

/-- Writes the three command flags (R15). -/
def Bank.withCommand (b : Bank) (drive resp sleep : Bool) : Bank :=
  { b with drive := drive, resp := resp, sleep := sleep }

/-- `ACK <- v` (R15). -/
def Bank.withAck (b : Bank) (v : Bool) : Bank := { b with ack := v }

/-- `LEN <- v` (R16). -/
def Bank.withLen (b : Bank) (v : Half) : Bank := { b with len := v }

/-- `CRC <- v` (R18). -/
def Bank.withCrc (b : Bank) (v : Byte) : Bank := { b with crc := v }

/-- Loads a body and makes `LEN` match it, `HEADER_SIZE + n + CHECKSUM_SIZE` (40_construct.md R65; 45_drive_body.md R87). -/
def Bank.loadBody (b : Bank) (v : List Byte) : Bank :=
  (b.withBody v).withLen (BitVec.ofNat 16 (frameLength v.length))

/-! ### The machine -/

/-- The bank a bank operand names. -/
def State.bank (s : State) : BankId → Bank
  | .tx => s.tx
  | .rx => s.rx

/-- Bank `TX` replaced. -/
def State.withTx (s : State) (b : Bank) : State := { s with tx := b }

/-- Bank `RX` replaced. -/
def State.withRx (s : State) (b : Bank) : State := { s with rx := b }

/-- `RX.STATUS <- v` (R22). -/
def State.withStatus (s : State) (v : Byte) : State := { s with status := v }

/-- The queue of issued requests replaced. -/
def State.withRequests (s : State) (q : List Request) : State := { s with requests := q }

/-- The host receives a response (30_encoding.md R57). -/
def State.respond (s : State) (r : Response) : State := { s with responses := s.responses ++ [r] }

/-- NEW (40_construct.md R61): the bank holds the empty packet; NEW RX also clears `RX.STATUS`. -/
def State.newBank (s : State) : BankId → State
  | .tx => s.withTx Bank.empty
  | .rx => (s.withRx Bank.empty).withStatus 0

/-- `return (OK, d)` (00_scope.md R10). -/
def answer (d : Data) (s : State) : Result := .next (s.respond { code := .ok, data := d })

/-- `raise E`, the block's whole way of taking an error (60_exceptions.md R90, R99): the operation ends with code `E` and no
data, nothing is saved, no control is transferred and no mode changes; `s` is the state its rule gives for that error.
There is no return from it: nothing was entered and nothing is sticky (R100). -/
def raise (e : Code) (s : State) : Result := .next (s.respond { code := e, data := .nothing })

/-- A request that is no instruction: a flags byte that selects no kind is the error `MalformedCommandFlags` (30_encoding.md
R52, 44_access.md R81); a command word of no row is refused (R56, R101). -/
def undecoded (e : DecodeError) (s : State) : Result :=
  match e with
  | .malformedFlags => raise .malformedCommandFlags s
  | .reservedBitsSet => .refused .reservedBitsSet
  | .unassignedOp => .refused .unassignedOp
  | .bankNotAccepted => .refused .bankNotAccepted
  | .immediateNotZero => .refused .immediateNotZero
  | .kindCodeOutOfRange => .refused .kindCodeOutOfRange
  | .ackOutOfRange => .refused .ackOutOfRange

end Sys2Proof.Machine
end

