-- ==== Sys2Proof/Machine/Construct.lean ====
section
/-!
DEFINITION. Packet construction (40_construct.md R60 to R66): NEW, SETSEQ, SETCMD, SETACK, SETBODY, SETLEN. The setters act
on bank `TX` only and raise no error (R60).
-/

namespace Sys2Proof.Machine

/-- NEW (R61). -/
def execNew (bank : BankId) (s : State) : Result := answer .nothing (s.newBank bank)

/-- SETSEQ (R62). -/
def execSetseq (n : Half) (s : State) : Result := answer .nothing (s.withTx (s.tx.withSeq n))

/-- SETCMD (R63): the kind's flag set, the other two cleared, `ACK` kept. -/
def execSetcmd (kind : CommandKind) (s : State) : Result :=
  match kind with
  | .drive => answer .nothing (s.withTx (s.tx.withCommand true false false))
  | .sleep => answer .nothing (s.withTx (s.tx.withCommand false false true))
  | .response => answer .nothing (s.withTx (s.tx.withCommand false true false))

/-- SETACK (R64). -/
def execSetack (v : Bool) (s : State) : Result := answer .nothing (s.withTx (s.tx.withAck v))

/-- SETBODY on an instance with body capacity `cap` (R65; 93_implementation_defined.md U1, U13). -/
def setbodyWith (cap : Nat) (input : List Byte) (s : State) : Result :=
  if cap < input.length then .refused .bodyTooLong
  else answer .nothing (s.withTx (s.tx.loadBody input))

/-- SETBODY (R65), on the default instance (log entry 1). -/
def execSetbody (input : List Byte) (s : State) : Result := setbodyWith Config.bodyCap input s

/-- SETLEN (R66). -/
def execSetlen (n : Half) (s : State) : Result := answer .nothing (s.withTx (s.tx.withLen n))

end Sys2Proof.Machine
end

