-- ==== Sys2Proof/Machine/Checksum.lean ====
section
/-!
DEFINITION. The checksum (43_checksum.md R74 to R78): the functions `popcount` and `cksum`, and the stateless operations
CKSUM and VERIFY.
-/

namespace Sys2Proof.Machine

/-- `popcount(b) = b[0] + ... + b[7]` (R74). -/
def popcount (b : Byte) : Nat :=
  (b.getLsbD 0).toNat + (b.getLsbD 1).toNat + (b.getLsbD 2).toNat + (b.getLsbD 3).toNat
    + (b.getLsbD 4).toNat + (b.getLsbD 5).toNat + (b.getLsbD 6).toNat + (b.getLsbD 7).toNat

/-- The exact sum of the popcounts of a byte sequence. -/
def popcountSum : List Byte → Nat
  | [] => 0
  | b :: bs => popcount b + popcountSum bs

/-- `cksum(s)`, the popcount sum modulo 256 (R75). -/
def cksum (bytes : List Byte) : Byte := BitVec.ofNat 8 (popcountSum bytes)

/-- Does the trailing byte equal the checksum of all earlier bytes? False for sequences of length 0 and 1 (R77). -/
def verifyBytes (input : List Byte) : Bool :=
  if input.length ≤ 1 then false
  else decide (some (cksum input.dropLast) = input.getLast?)

/-- CKSUM (R76). -/
def execCksum (input : List Byte) (s : State) : Result := answer (.u8 (cksum input)) s

/-- VERIFY (R77): a failed check is the result 0 with code `OK`. -/
def execVerify (input : List Byte) (s : State) : Result := answer (.bit (verifyBytes input)) s

end Sys2Proof.Machine
end

