-- ==== Sys2Proof/Machine/Deserialize.lean ====
section
/-!
DEFINITION. DECODE, the deserializer and integrity checker (42_decode.md R70 to R73).
-/

namespace Sys2Proof.Machine

/-- What a frame carries once its structural checks have passed (R70). -/
structure Frame where
  header : Header
  body : List Byte
  crc : Byte
deriving DecidableEq, Repr

/-- The structural checks 1 to 4 in the order of R71, and the fields of a frame that passes them (R70), on an instance with
body capacity `cap`. The number of bytes is compared exactly (R78 d), and the body length is subtracted only after check 2. -/
def parseFrame (cap : Nat) (input : List Byte) : Option Frame :=
  if input.length < Config.minFrame then none
  else
    match parseHeader input, input.getLast? with
    | some h, some c =>
      if h.length.toNat < Config.minFrame then none
      else if h.length.toNat ≠ input.length then none
      else if Config.frameCapOf cap < input.length then none
      else
        some { header := h, body := (input.drop Config.bodyOff).take (h.length.toNat - Config.minFrame), crc := c }
    | _, _ => none

/-- Check 5: the received checksum differs from that of all earlier bytes (R70). -/
def frameCrcErr (input : List Byte) (f : Frame) : Bool := decide (cksum input.dropLast ≠ f.crc)

/-- Check 6: not exactly one command flag (R70). -/
def frameFlagErr (f : Frame) : Bool :=
  decide (commandCount (driveBit f.header.flags) (respBit f.header.flags) (sleepBit f.header.flags) ≠ 1)

/-- The commit of a parsed frame: every field of the bank, at once (R70). -/
def Bank.commit (b : Bank) (f : Frame) : Bank :=
  (((((b.withSeq f.header.seq).withCommand (driveBit f.header.flags) (respBit f.header.flags)
    (sleepBit f.header.flags)).withAck (ackBit f.header.flags)).withBody f.body).withLen f.header.length).withCrc f.crc

/-- The record of R72: the values just written to `RX`. -/
def recordOf (b : Bank) (body : List Byte) (status : Byte) : Record :=
  { seq := b.seq, drive := b.drive, resp := b.resp, sleep := b.sleep, ack := b.ack, len := b.len, blen := b.blen,
    body := body, crc := b.crc, status := status }

/-- `fail_frame` of R70: NEW RX, FRAME_ERR, `TruncatedOrOversizedFrame`, no data. -/
def failFrame (s : State) : Result :=
  raise .truncatedOrOversizedFrame ((s.newBank .rx).withStatus statusFrameErr)

/-- DECODE on an instance with body capacity `cap` (R70; 93_implementation_defined.md U13). -/
def decodeWith (cap : Nat) (input : List Byte) (s : State) : Result :=
  match parseFrame cap input with
  | none => failFrame s
  | some f =>
    let rx := s.rx.commit f
    let status := statusByte (frameCrcErr input f) (frameFlagErr f)
    .next (((s.withRx rx).withStatus status).respond
      { code := decodeCode (frameCrcErr input f) (frameFlagErr f), data := .record (recordOf rx f.body status) })

/-- DECODE (R70), on the default instance (log entry 1). -/
def execDecode (input : List Byte) (s : State) : Result := decodeWith Config.bodyCap input s

end Sys2Proof.Machine
end

