-- ==== Sys2Proof/Machine/DriveBody.lean ====
section
/-!
DEFINITION. The Drive body operations (45_drive_body.md R87 to R89): PACKDRIVE and UNPACKDRIVE. No operand is checked.
-/

namespace Sys2Proof.Machine

/-- PACKDRIVE (R87): the four Drive bytes become the body of `TX` and `LEN` becomes 10; no flag is touched. They always fit,
since `BODY_CAP` is at least `DRIVE_BODY_SIZE` (00_scope.md R8). -/
def execPackdrive (direction duration : Byte) (speed : Half) (s : State) : Result :=
  answer .nothing (s.withTx (s.tx.loadBody (driveBody direction duration speed)))

/-- UNPACKDRIVE (R88): refused unless `BLEN` is `DRIVE_BODY_SIZE`; looks at no flag and no status. -/
def execUnpackdrive (bank : BankId) (s : State) : Result :=
  if (s.bank bank).blen.toNat ≠ Config.driveBodySize then .refused .bodyNotDriveSize
  else
    match (Memory.read (s.bank bank).body 0 Config.driveBodySize).bind parseDrive with
    | none => .fault .bodyByteAbsent
    | some (direction, duration, speed) => answer (.drive direction duration speed) s

end Sys2Proof.Machine
end

