-- ==== Sys2Proof/Decode.lean ====
section
/-!
DEFINITION. From a host's request to an instruction and back: the command word of 30_encoding.md R55, the operation codes of
R56, the operand word of PACKDRIVE (R55, R87) and the flags byte of a frame (R45, R52). `decode` is total and rejects by
name; `encode` is its inverse on instructions. Neither looks at State.
-/

namespace Sys2Proof

/-! ### The fields of a command word (R55) -/

/-- `op`, bits 31:24. -/
def opField (w : Word) : BitVec 8 := w.extractLsb' 24 8

/-- `bk`, bit 23. -/
def bankField (w : Word) : Bool := w.getLsbD 23

/-- `zero`, bits 22:16. -/
def zeroField (w : Word) : BitVec 7 := w.extractLsb' 16 7

/-- `imm`, bits 15:0. -/
def immField (w : Word) : Half := w.extractLsb' 0 16

/-- A command word from its fields, `zero` being 0: `op << 24 | bk << 23 | imm` (R55). -/
def commandWord (op : BitVec 8) (bk : Bool) (imm : Half) : Word :=
  op ++ BitVec.ofBool bk ++ 0#7 ++ imm

/-- PACKDRIVE's operand word `direction[31:24] | duration[23:16] | speed[15:0]` (R55, R87). -/
def driveWord (direction duration : Byte) (speed : Half) : Word :=
  direction ++ duration ++ speed

/-- `bk` of a bank: 0 is `TX`, 1 is `RX` (R55). -/
def BankId.bit : BankId → Bool
  | .tx => false
  | .rx => true

/-- The bank that a `bk` bit selects (R55). -/
def BankId.ofBit : Bool → BankId
  | false => .tx
  | true => .rx

/-- The kind codes of SETCMD (R56): Drive 0, Sleep 1, Response 2. -/
def CommandKind.code : CommandKind → Nat
  | .drive => 0
  | .sleep => 1
  | .response => 2

/-! ### The flags byte (R45, R52) -/

/-- Bits 2:0 of the flags byte of a frame of this kind (R52). -/
def CommandKind.flagBits : CommandKind → BitVec 3
  | .drive => 0b001#3
  | .response => 0b010#3
  | .sleep => 0b100#3

/-- A flags byte with one command flag, ack bit 3 and bits 7:4 as given (R45). -/
def frameFlags (kind : CommandKind) (ack : Bool) (reserved : BitVec 4) : Byte :=
  reserved ++ BitVec.ofBool ack ++ kind.flagBits

/-- The `FRAME_FLAGS` rows: bits 2:0 select the kind, bit 3 and bits 7:4 take no part (R52). -/
def decodeFlagsByte (b : Byte) : Except DecodeError Instr :=
  let ack := b.getLsbD 3
  let reserved := b.extractLsb' 4 4
  match (b.extractLsb' 0 3).toNat with
  | 0x1 => .ok (.frameDrive ack reserved)
  | 0x2 => .ok (.frameResponse ack reserved)
  | 0x4 => .ok (.frameSleep ack reserved)
  | _ => .error .malformedFlags

/-! ### The `CMD` rows (R56) -/

/-- An operation that accepts both banks and has no immediate. -/
def eitherBank (bk : Bool) (imm : Half) (i : BankId → Instr) : Except DecodeError Instr :=
  if imm = 0 then .ok (i (BankId.ofBit bk)) else .error .immediateNotZero

/-- An operation with `bk` fixed at `want` and an immediate read by `i`. -/
def fixedBank (want bk : Bool) (i : Except DecodeError Instr) : Except DecodeError Instr :=
  if bk = want then i else .error .bankNotAccepted

/-- An operation whose immediate must be 0. -/
def noImm (imm : Half) (i : Instr) : Except DecodeError Instr :=
  if imm = 0 then .ok i else .error .immediateNotZero

/-- SETCMD's kind code (R56, R63). -/
def decodeKind (imm : Half) : Except DecodeError Instr :=
  match imm.toNat with
  | 0 => .ok (.setcmd .drive)
  | 1 => .ok (.setcmd .sleep)
  | 2 => .ok (.setcmd .response)
  | _ => .error .kindCodeOutOfRange

/-- SETACK's value (R56, R64). -/
def decodeAck (imm : Half) : Except DecodeError Instr :=
  match imm.toNat with
  | 0 => .ok (.setack false)
  | 1 => .ok (.setack true)
  | _ => .error .ackOutOfRange

/-- The operands of PACKDRIVE from its operand word (R55, R87). -/
def decodeDrive (operand : Word) : Instr :=
  .packdrive (operand.extractLsb' 24 8) (operand.extractLsb' 16 8) (operand.extractLsb' 0 16)

/-- The command word with what accompanies it (R55, R56). Which name a word with several defects is rejected by is the
model's choice: reserved bits, then operation, then bank, then immediate (log entry 9). -/
def decodeCommand (w operand : Word) (input : List Byte) : Except DecodeError Instr :=
  if zeroField w ≠ 0 then .error .reservedBitsSet
  else
    let bk := bankField w
    let imm := immField w
    match (opField w).toNat with
    | 0x00 => eitherBank bk imm .new
    | 0x01 => fixedBank false bk (.ok (.setseq imm))
    | 0x02 => fixedBank false bk (decodeKind imm)
    | 0x03 => fixedBank false bk (decodeAck imm)
    | 0x04 => fixedBank false bk (noImm imm (.setbody input))
    | 0x05 => fixedBank false bk (.ok (.setlen imm))
    | 0x06 => fixedBank false bk (noImm imm (decodeDrive operand))
    | 0x08 => fixedBank false bk (noImm imm .encode)
    | 0x09 => fixedBank true bk (noImm imm (.decode input))
    | 0x0A => fixedBank false bk (noImm imm (.cksum input))
    | 0x0B => fixedBank false bk (noImm imm (.verify input))
    | 0x10 => eitherBank bk imm .getseq
    | 0x11 => eitherBank bk imm .getcmd
    | 0x12 => eitherBank bk imm .getack
    | 0x13 => eitherBank bk imm .getbody
    | 0x14 => eitherBank bk imm .getlen
    | 0x15 => eitherBank bk imm .getcrc
    | 0x16 => fixedBank true bk (noImm imm .getstatus)
    | 0x17 => eitherBank bk imm .unpackdrive
    | _ => .error .unassignedOp

/-- The instruction a request stands for (R52, R56), or the reason it stands for none. -/
def decode : Request → Except DecodeError Instr
  | .command w operand input => decodeCommand w operand input
  | .flagsByte b => decodeFlagsByte b

/-! ### The encoder (R52, R55, R56) -/

/-- A command without operand word or byte sequence. -/
def plainCommand (op : BitVec 8) (bk : Bool) (imm : Half) : Request := .command (commandWord op bk imm) 0 []

/-- A command with a byte sequence beside it (R55). -/
def sequenceCommand (op : BitVec 8) (bk : Bool) (input : List Byte) : Request := .command (commandWord op bk 0) 0 input

/-- The request that stands for an instruction. -/
def encode : Instr → Request
  | .new bank => plainCommand 0x00#8 bank.bit 0
  | .setseq n => plainCommand 0x01#8 false n
  | .setcmd kind => plainCommand 0x02#8 false (BitVec.ofNat 16 kind.code)
  | .setack v => plainCommand 0x03#8 false (BitVec.ofNat 16 v.toNat)
  | .setbody input => sequenceCommand 0x04#8 false input
  | .setlen n => plainCommand 0x05#8 false n
  | .packdrive direction duration speed => .command (commandWord 0x06#8 false 0) (driveWord direction duration speed) []
  | .encode => plainCommand 0x08#8 false 0
  | .decode input => sequenceCommand 0x09#8 true input
  | .cksum input => sequenceCommand 0x0A#8 false input
  | .verify input => sequenceCommand 0x0B#8 false input
  | .getseq bank => plainCommand 0x10#8 bank.bit 0
  | .getcmd bank => plainCommand 0x11#8 bank.bit 0
  | .getack bank => plainCommand 0x12#8 bank.bit 0
  | .getbody bank => plainCommand 0x13#8 bank.bit 0
  | .getlen bank => plainCommand 0x14#8 bank.bit 0
  | .getcrc bank => plainCommand 0x15#8 bank.bit 0
  | .getstatus => plainCommand 0x16#8 true 0
  | .unpackdrive bank => plainCommand 0x17#8 bank.bit 0
  | .frameDrive ack reserved => .flagsByte (frameFlags .drive ack reserved)
  | .frameResponse ack reserved => .flagsByte (frameFlags .response ack reserved)
  | .frameSleep ack reserved => .flagsByte (frameFlags .sleep ack reserved)

/-! ### The opcode table's numbering (opcode_table.json; log entry 14) -/

/-- The `match` and `mask` of the `CMD` rows of opcode_table.json, in the table's order (R56): a word belongs to a row when
it agrees with `match` wherever `mask` has a 1. SETCMD's row also admits kind code 3, which R56 refuses. -/
def commandRows : List (Word × Word) :=
  [(0x00000000#32, 0xFF7FFFFF#32), (0x01000000#32, 0xFFFF0000#32), (0x02000000#32, 0xFFFFFFFC#32),
   (0x03000000#32, 0xFFFFFFFE#32), (0x04000000#32, 0xFFFFFFFF#32), (0x05000000#32, 0xFFFF0000#32),
   (0x06000000#32, 0xFFFFFFFF#32), (0x08000000#32, 0xFFFFFFFF#32), (0x09800000#32, 0xFFFFFFFF#32),
   (0x0A000000#32, 0xFFFFFFFF#32), (0x0B000000#32, 0xFFFFFFFF#32), (0x10000000#32, 0xFF7FFFFF#32),
   (0x11000000#32, 0xFF7FFFFF#32), (0x12000000#32, 0xFF7FFFFF#32), (0x13000000#32, 0xFF7FFFFF#32),
   (0x14000000#32, 0xFF7FFFFF#32), (0x15000000#32, 0xFF7FFFFF#32), (0x16800000#32, 0xFFFFFFFF#32),
   (0x17000000#32, 0xFF7FFFFF#32)]

/-- The `match` and `mask` of the `FRAME_FLAGS` rows, on a frame's flags byte (R52). -/
def frameRows : List (Byte × Byte) := [(0x01#8, 0x07#8), (0x02#8, 0x07#8), (0x04#8, 0x07#8)]

/-- The request whose bits are `w`, `nbits` of them given and the rest 0: a row of 8 bits is a flags byte, a longer one a
command word, bits 63:32 its operand word, with the empty byte sequence beside it (log entry 14). -/
def tableRequest (nbits w : Nat) : Request :=
  let v := w % 2 ^ nbits
  if nbits ≤ 8 then .flagsByte (BitVec.ofNat 8 v)
  else .command (BitVec.ofNat 32 v) (BitVec.ofNat 32 (v / 2 ^ 32)) []

/-- The instruction the decoder reads from an opcode-table word. -/
def decodeTableWord (nbits w : Nat) : Option Instr := (decode (tableRequest nbits w)).toOption

end Sys2Proof
end

