-- ==== Sys2Proof/Machine/Access.lean ====
section
/-!
DEFINITION. The accessors (44_access.md R79 to R86): each reads its bank as it is, without looking at `RX.STATUS`, and writes
nothing (R79).
-/

namespace Sys2Proof.Machine

/-- The answer to a question for a command kind (R81): the kind, or `MalformedCommandFlags`, never a default. -/
def answerKind (k : Option CommandKind) (s : State) : Result :=
  match k with
  | none => raise .malformedCommandFlags s
  | some k => answer (.kind k) s

/-- GETSEQ (R80). -/
def execGetseq (bank : BankId) (s : State) : Result := answer (.u16 (s.bank bank).seq) s

/-- GETCMD (R81). -/
def execGetcmd (bank : BankId) (s : State) : Result :=
  answerKind (kindOf (s.bank bank).drive (s.bank bank).resp (s.bank bank).sleep) s

/-- GETACK (R82). -/
def execGetack (bank : BankId) (s : State) : Result := answer (.bit (s.bank bank).ack) s

/-- GETBODY (R83). -/
def execGetbody (bank : BankId) (s : State) : Result :=
  match (s.bank bank).bodyBytes with
  | none => .fault .bodyByteAbsent
  | some body => answer (.bytes body) s

/-- GETLEN (R84): the stored value. -/
def execGetlen (bank : BankId) (s : State) : Result := answer (.u16 (s.bank bank).len) s

/-- GETCRC (R85): the stored value, never recomputed. -/
def execGetcrc (bank : BankId) (s : State) : Result := answer (.u8 (s.bank bank).crc) s

/-- GETSTATUS (R86): reading clears nothing. -/
def execGetstatus (s : State) : Result := answer (.u8 s.status) s

end Sys2Proof.Machine
end

