-- ==== Sys2Proof/Machine/FrameKind.lean ====
section
/-!
DEFINITION. The command kinds on the wire (30_encoding.md R52), the `FRAME_FLAGS` rows of the opcode table. Their semantics
are GETCMD's (R52, 44_access.md R81): a frame's flags byte is read as DECODE reads it (R45) and its kind is answered. No
state is read or written; what DECODE stores of such a byte is R70's business (log entry 6).
-/

namespace Sys2Proof.Machine

/-- The kind of a frame's flags byte, answered as GETCMD answers it (R45, R52, R81). -/
def answerFrameKind (b : Byte) (s : State) : Result := answerKind (kindOf (driveBit b) (respBit b) (sleepBit b)) s

/-- FRAME.Drive (R52). -/
def execFrameDrive (ack : Bool) (reserved : BitVec 4) (s : State) : Result :=
  answerFrameKind (frameFlags .drive ack reserved) s

/-- FRAME.Response (R52). -/
def execFrameResponse (ack : Bool) (reserved : BitVec 4) (s : State) : Result :=
  answerFrameKind (frameFlags .response ack reserved) s

/-- FRAME.Sleep (R52). -/
def execFrameSleep (ack : Bool) (reserved : BitVec 4) (s : State) : Result :=
  answerFrameKind (frameFlags .sleep ack reserved) s

end Sys2Proof.Machine
end

