-- ==== Sys2Proof/Machine/Serialize.lean ====
section
/-!
DEFINITION. ENCODE, the serializer (41_encode.md R67 to R69).
-/

namespace Sys2Proof.Machine

/-- The header of a bank as ENCODE emits it (R67, step 2). -/
def Bank.header (b : Bank) : List Byte := headerBytes b.seq (flagsByte b.drive b.resp b.sleep b.ack) b.len

/-- ENCODE (R67). The length check comes first and its failure changes nothing; the checksum is always computed anew; the
command flags and the body are not checked (R68). -/
def execEncode (s : State) : Result :=
  if s.tx.len.toNat ≠ frameLength s.tx.blen.toNat then raise .invalidHeaderLength s
  else
    match s.tx.bodyBytes with
    | none => .fault .bodyByteAbsent
    | some body =>
      let c := cksum (s.tx.header ++ body)
      answer (.bytes (s.tx.header ++ body ++ [c])) (s.withTx (s.tx.withCrc c))

end Sys2Proof.Machine
end

