-- ==== Sys2Proof/Machine/Dispatch.lean ====
section
/-!
DEFINITION. One arm per row of the opcode table, each one direct call of its meaning.
-/

namespace Sys2Proof.Machine

/-- The meaning of an instruction. -/
def exec (i : Instr) (s : State) : Host.Outcome State Fault Refusal :=
  match i with
  | .new bank => Sys2Proof.Machine.execNew bank s
  | .setseq n => Sys2Proof.Machine.execSetseq n s
  | .setcmd kind => Sys2Proof.Machine.execSetcmd kind s
  | .setack v => Sys2Proof.Machine.execSetack v s
  | .setbody input => Sys2Proof.Machine.execSetbody input s
  | .setlen n => Sys2Proof.Machine.execSetlen n s
  | .packdrive direction duration speed => Sys2Proof.Machine.execPackdrive direction duration speed s
  | .encode => Sys2Proof.Machine.execEncode s
  | .decode input => Sys2Proof.Machine.execDecode input s
  | .cksum input => Sys2Proof.Machine.execCksum input s
  | .verify input => Sys2Proof.Machine.execVerify input s
  | .getseq bank => Sys2Proof.Machine.execGetseq bank s
  | .getcmd bank => Sys2Proof.Machine.execGetcmd bank s
  | .getack bank => Sys2Proof.Machine.execGetack bank s
  | .getbody bank => Sys2Proof.Machine.execGetbody bank s
  | .getlen bank => Sys2Proof.Machine.execGetlen bank s
  | .getcrc bank => Sys2Proof.Machine.execGetcrc bank s
  | .getstatus => Sys2Proof.Machine.execGetstatus s
  | .unpackdrive bank => Sys2Proof.Machine.execUnpackdrive bank s
  | .frameDrive ack reserved => Sys2Proof.Machine.execFrameDrive ack reserved s
  | .frameResponse ack reserved => Sys2Proof.Machine.execFrameResponse ack reserved s
  | .frameSleep ack reserved => Sys2Proof.Machine.execFrameSleep ack reserved s

end Sys2Proof.Machine
end

