-- ==== Sys2Proof/Machine/Step.lean ====
section
/-!
DEFINITION. One step: the oldest request the host has issued is taken from the queue, decoded and executed (10_state.md R20;
20_memory.md R39). With no request issued nothing happens (60_exceptions.md R97; log entry 4).
-/

namespace Sys2Proof.Machine

/-- One step of an instance whose instructions have the meaning `run`. -/
def stepWith (run : Instr → State → Result) (s : State) : Result :=
  match s.requests with
  | [] => .next s
  | r :: rest =>
    match decode r with
    | .ok i => run i (s.withRequests rest)
    | .error e => undecoded e (s.withRequests rest)

/-- One step of the machine. -/
def step (s : State) : Host.Outcome State Fault Refusal := stepWith exec s

/-- The host issues, ahead of anything already issued, the request with these bits: the very next step runs it (log
entry 2). -/
def State.withFetchWord (s : State) (nbits w : Nat) : State := s.withRequests (tableRequest nbits w :: s.requests)

end Sys2Proof.Machine
end

