-- ==== Sys2Proof/Machine/Instance.lean ====
section
/-!
DEFINITION. The block as an instance of any body capacity (00_scope.md R8; 93_implementation_defined.md U13). `exec` and `step`
are the instance of the default capacity (log entry 1); only SETBODY and DECODE depend on it (92_eei_decisions.md D7).
-/

namespace Sys2Proof.Machine

/-- What an instruction does on an instance with body capacity `cap` (R8, R65, R70). -/
def execOn (cap : Nat) (i : Instr) (s : State) : Result :=
  match i with
  | .setbody input => setbodyWith cap input s
  | .decode input => decodeWith cap input s
  | .new b => exec (.new b) s
  | .setseq n => exec (.setseq n) s
  | .setcmd k => exec (.setcmd k) s
  | .setack v => exec (.setack v) s
  | .setlen n => exec (.setlen n) s
  | .packdrive d u v => exec (.packdrive d u v) s
  | .encode => exec .encode s
  | .cksum input => exec (.cksum input) s
  | .verify input => exec (.verify input) s
  | .getseq b => exec (.getseq b) s
  | .getcmd b => exec (.getcmd b) s
  | .getack b => exec (.getack b) s
  | .getbody b => exec (.getbody b) s
  | .getlen b => exec (.getlen b) s
  | .getcrc b => exec (.getcrc b) s
  | .getstatus => exec .getstatus s
  | .unpackdrive b => exec (.unpackdrive b) s
  | .frameDrive ack reserved => exec (.frameDrive ack reserved) s
  | .frameResponse ack reserved => exec (.frameResponse ack reserved) s
  | .frameSleep ack reserved => exec (.frameSleep ack reserved) s

/-- One step of an instance with body capacity `cap`. -/
def stepOn (cap : Nat) (s : State) : Result := stepWith (execOn cap) s

end Sys2Proof.Machine
end

