-- ==== Sys2Proof/Machine/Script.lean ====
section
/-!
DEFINITION. Host scripts (70_reset_and_hazards.md R117): a sequence of operations executed in issue order (20_memory.md
R39), the same sequence issued as requests, and the pseudo-operations of 30_encoding.md R59.
-/

namespace Sys2Proof.Machine

/-- The operations of a script applied in issue order, stopping at the first that has no next state (R39, R117; U11). -/
def execAll : List Instr → State → Result
  | [], s => .next s
  | i :: is, s =>
    match exec i s with
    | .next s' => execAll is s'
    | .fault f => .fault f
    | .refused r => .refused r

/-- The host issues the operations of a script behind what it has issued already. -/
def State.issue (s : State) (is : List Instr) : State := s.withRequests (s.requests ++ is.map encode)

/-- `DRIVEPKT n, dir, dur, speed` (R59). -/
def drivepkt (n : Half) (direction duration : Byte) (speed : Half) : List Instr :=
  [.new .tx, .setseq n, .setcmd .drive, .packdrive direction duration speed]

/-- `SLEEPPKT n` (R59). -/
def sleeppkt (n : Half) : List Instr := [.new .tx, .setseq n, .setcmd .sleep]

/-- `RESPPKT n, b0 b1 ...` (R59). -/
def resppkt (n : Half) (body : List Byte) : List Instr := [.new .tx, .setseq n, .setcmd .response, .setbody body]

end Sys2Proof.Machine
end

