-- ==== Sys2Proof/Safety.lean ====
section
/-!
DEFINITION. What the statements call a good state, and which parts of the state each operation may read and write: the
access table of 10_state.md R26.
-/

namespace Sys2Proof.Safety

open Sys2Proof.Machine

/-- The state an outcome goes on with, if it does. -/
def nextState (o : Result) : Option State :=
  match o with
  | .next s => some s
  | .fault _ => none
  | .refused _ => none

/-- The operation has no meaning here (60_exceptions.md R101). -/
def isRefused (o : Result) : Bool :=
  match o with
  | .next _ => false
  | .fault _ => false
  | .refused _ => true

/-- A bank whose buffer holds exactly the bytes of its body, at offsets 0 to `BLEN - 1`, within the capacity `cap`
(10_state.md R17, R19; 20_memory.md R31). -/
def BankOk (cap : Nat) (b : Bank) : Prop :=
  b.body.map Prod.fst = List.range b.blen.toNat ∧ b.blen.toNat ≤ cap

/-- The invariant of every run of an instance with body capacity `cap`: both banks are in order, no TX operation has set two
command flags (41_encode.md R68),
`RX.LEN` counts the RX body (10_state.md R21), and `RX.STATUS` is a legal value that agrees with bank `RX` (R22). -/
structure InvOn (cap : Nat) (s : State) : Prop where
  txOk : BankOk cap s.tx
  rxOk : BankOk cap s.rx
  txFlags : commandCount s.tx.drive s.tx.resp s.tx.sleep ≤ 1
  rxLen : s.rx.len.toNat = frameLength s.rx.blen.toNat
  statusLegal : s.status ∈ ([0x00, 0x02, 0x01, 0x05, 0x09, 0x0D] : List Byte)
  invalidEmpty : statusValid s.status = false → s.rx = Bank.empty
  flagErrAgrees : statusValid s.status = true →
    (statusFlagErr s.status = true ↔ commandCount s.rx.drive s.rx.resp s.rx.sleep ≠ 1)

/-- The invariant of the machine, the instance of the default capacity. -/
abbrev Inv (s : State) : Prop := InvOn Config.bodyCap s

/-- The columns of the access table for one bank (10_state.md R26); the flags column is split as its notes split it. -/
inductive Field
  | seq
  | command
  | ack
  | len
  | blen
  | body
  | crc
deriving DecidableEq, Repr

/-- The parts of the state the access table speaks of. -/
inductive Part
  | bank (b : BankId) (f : Field)
  | status
deriving DecidableEq, Repr

/-- Two banks hold the same in one column. The body column is compared where both banks have a body byte: offsets at and
beyond `BLEN` are no part of the packet (R19). -/
def sameField (f : Field) (a b : Bank) : Prop :=
  match f with
  | .seq => a.seq = b.seq
  | .command => a.drive = b.drive ∧ a.resp = b.resp ∧ a.sleep = b.sleep
  | .ack => a.ack = b.ack
  | .len => a.len = b.len
  | .blen => a.blen = b.blen
  | .body => ∀ i, i < a.blen.toNat → i < b.blen.toNat → Memory.readByte a.body i = Memory.readByte b.body i
  | .crc => a.crc = b.crc

/-- Two states hold the same in one part. -/
def samePart (p : Part) (s t : State) : Prop :=
  match p with
  | .bank b f => sameField f (s.bank b) (t.bank b)
  | .status => s.status = t.status

/-- The parts that hold the body of one bank. -/
def isBodyOf (b : BankId) (p : Part) : Bool := decide (p = .bank b .blen ∨ p = .bank b .body)

/-- The part belongs to this bank, its status left out. -/
def isOfBank (b : BankId) (p : Part) : Bool :=
  match p with
  | .bank c _ => decide (b = c)
  | .status => false

/-- The `w` entries of the access table (R26); the `FRAME_FLAGS` rows are no operations of it and write nothing (log entry
6). -/
def writes (i : Instr) (p : Part) : Bool :=
  match i with
  | .new b => (isOfBank b p && decide (p ≠ .bank b .body)) || decide (b = .rx ∧ p = .status)
  | .setseq _ => decide (p = .bank .tx .seq)
  | .setcmd _ => decide (p = .bank .tx .command)
  | .setack _ => decide (p = .bank .tx .ack)
  | .setbody _ => decide (p = .bank .tx .len) || isBodyOf .tx p
  | .setlen _ => decide (p = .bank .tx .len)
  | .packdrive _ _ _ => decide (p = .bank .tx .len) || isBodyOf .tx p
  | .encode => decide (p = .bank .tx .crc)
  | .decode _ => isOfBank .rx p || decide (p = .status)
  | .cksum _ => false
  | .verify _ => false
  | .getseq _ => false
  | .getcmd _ => false
  | .getack _ => false
  | .getbody _ => false
  | .getlen _ => false
  | .getcrc _ => false
  | .getstatus => false
  | .unpackdrive _ => false
  | .frameDrive _ _ => false
  | .frameResponse _ _ => false
  | .frameSleep _ _ => false

/-- The `r` entries of the access table (R26). -/
def reads (i : Instr) (p : Part) : Bool :=
  match i with
  | .new _ => false
  | .setseq _ => false
  | .setcmd _ => false
  | .setack _ => false
  | .setbody _ => false
  | .setlen _ => false
  | .packdrive _ _ _ => false
  | .encode => isOfBank .tx p && decide (p ≠ .bank .tx .crc)
  | .decode _ => false
  | .cksum _ => false
  | .verify _ => false
  | .getseq b => decide (p = .bank b .seq)
  | .getcmd b => decide (p = .bank b .command)
  | .getack b => decide (p = .bank b .ack)
  | .getbody b => isBodyOf b p
  | .getlen b => decide (p = .bank b .len)
  | .getcrc b => decide (p = .bank b .crc)
  | .getstatus => decide (p = .status)
  | .unpackdrive b => isBodyOf b p
  | .frameDrive _ _ => false
  | .frameResponse _ _ => false
  | .frameSleep _ _ => false

/-- The setters of a packet under construction (40_construct.md R60; 45_drive_body.md R87): they write `TX` and read nothing. -/
def isSetter : Instr → Bool
  | .setseq _ => true
  | .setcmd _ => true
  | .setack _ => true
  | .setbody _ => true
  | .setlen _ => true
  | .packdrive _ _ _ => true
  | .new _ => false
  | .encode => false
  | .decode _ => false
  | .cksum _ => false
  | .verify _ => false
  | .getseq _ => false
  | .getcmd _ => false
  | .getack _ => false
  | .getbody _ => false
  | .getlen _ => false
  | .getcrc _ => false
  | .getstatus => false
  | .unpackdrive _ => false
  | .frameDrive _ _ => false
  | .frameResponse _ _ => false
  | .frameSleep _ _ => false

/-- `body` is the body of a bank: `BLEN` bytes, byte `i` at offset `i` of the buffer (10_state.md R17, R19). -/
def HoldsBody (b : Bank) (body : List Byte) : Prop :=
  body.length = b.blen.toNat ∧ ∀ i, i < body.length → Memory.readByte b.body i = body[i]?

/-- Some row of the operation table allows these fields (30_encoding.md R56). -/
def RowAllows (op bk imm : Nat) : Prop :=
  (op ∈ [0x00, 0x10, 0x11, 0x12, 0x13, 0x14, 0x15, 0x17] ∧ imm = 0) ∨
  (op ∈ [0x01, 0x05] ∧ bk = 0) ∨
  (op = 0x02 ∧ bk = 0 ∧ imm ≤ 2) ∨
  (op = 0x03 ∧ bk = 0 ∧ imm ≤ 1) ∨
  (op ∈ [0x04, 0x06, 0x08, 0x0A, 0x0B] ∧ bk = 0 ∧ imm = 0) ∨
  (op ∈ [0x09, 0x16] ∧ bk = 1 ∧ imm = 0)

/-- A command word that matches a row of the operation table: `zero` is 0, and `op`, `bk` and `imm` are as one of its rows
allows (R56; the fields written out as numbers, R55). -/
def MatchesOperationTable (w : Word) : Prop :=
  w.toNat / 2 ^ 16 % 2 ^ 7 = 0 ∧ RowAllows (w.toNat / 2 ^ 24) (w.toNat / 2 ^ 23 % 2) (w.toNat % 2 ^ 16)

/-- A cause of `TruncatedOrOversizedFrame` on an instance with body capacity `cap` (60_exceptions.md R93): fewer than
`MIN_FRAME` bytes, more than `FRAME_CAP`, or a
`length` field below `MIN_FRAME` or different from the number of bytes. -/
def StructurallyBad (cap : Nat) (input : List Byte) : Prop :=
  input.length < Config.minFrame ∨ Config.frameCapOf cap < input.length ∨
    ∃ l0 l1 : Byte, input[3]? = some l0 ∧ input[4]? = some l1 ∧
      (l0.toNat + 256 * l1.toNat < Config.minFrame ∨ l0.toNat + 256 * l1.toNat ≠ input.length)

/-- Bit `j` of byte `k` of a byte sequence, false where there is no such byte. -/
def bitAt (bytes : List Byte) (k j : Nat) : Bool :=
  match bytes[k]? with
  | some b => b.getLsbD j
  | none => false

/-- A byte sequence with bit `j` of byte `k` inverted (42_decode.md R73 d, e). -/
def flipBit (bytes : List Byte) (k j : Nat) : List Byte :=
  match bytes[k]? with
  | some b => bytes.set k (b ^^^ BitVec.twoPow 8 j)
  | none => bytes

/-- The code of the last response the host has received. -/
def lastCode (s : State) : Option Code := s.responses.getLast?.map Response.code

/-- The data of the last response the host has received. -/
def lastData (s : State) : Option Data := s.responses.getLast?.map Response.data

/-- Operations of ENC: they name bank `TX` (20_memory.md R39; 60_exceptions.md R104). -/
def ofEnc : Instr → Bool
  | .new b => decide (b = .tx)
  | .setseq _ => true
  | .setcmd _ => true
  | .setack _ => true
  | .setbody _ => true
  | .setlen _ => true
  | .packdrive _ _ _ => true
  | .encode => true
  | .getseq b => decide (b = .tx)
  | .getcmd b => decide (b = .tx)
  | .getack b => decide (b = .tx)
  | .getbody b => decide (b = .tx)
  | .getlen b => decide (b = .tx)
  | .getcrc b => decide (b = .tx)
  | .unpackdrive b => decide (b = .tx)
  | .decode _ => false
  | .cksum _ => false
  | .verify _ => false
  | .getstatus => false
  | .frameDrive _ _ => false
  | .frameResponse _ _ => false
  | .frameSleep _ _ => false

/-- Operations of DEC: they name bank `RX` or its status (20_memory.md R39; 60_exceptions.md R104). -/
def ofDec : Instr → Bool
  | .new b => decide (b = .rx)
  | .decode _ => true
  | .getseq b => decide (b = .rx)
  | .getcmd b => decide (b = .rx)
  | .getack b => decide (b = .rx)
  | .getbody b => decide (b = .rx)
  | .getlen b => decide (b = .rx)
  | .getcrc b => decide (b = .rx)
  | .getstatus => true
  | .unpackdrive b => decide (b = .rx)
  | .setseq _ => false
  | .setcmd _ => false
  | .setack _ => false
  | .setbody _ => false
  | .setlen _ => false
  | .packdrive _ _ _ => false
  | .encode => false
  | .cksum _ => false
  | .verify _ => false
  | .frameDrive _ _ => false
  | .frameResponse _ _ => false
  | .frameSleep _ _ => false

end Sys2Proof.Safety
end

