-- ==== Sys2Proof/Certificates/Slice0/Obligations.lean ====
section
/-!
DEFINITION. The statements for the provers, read off the numbered rules of spec/. A response is `(code, data)`; "answers next"
means that the operation completes. Record updates are written out, so that what is not named is unchanged.
-/

open Sys2Proof Sys2Proof.Machine Sys2Proof.Safety

/-! ### Encodings -/

/-- 30_encoding.md R55, R56: the decoder reads back every instruction from the request that encodes it, with every
operand at every value (that a flags byte is a request, with its ack and reserved bits kept, is the model's choice, log
entry 6). -/
def Obligations.DecodeOfEncodeIsTheInstruction : Prop :=
  ∀ i : Instr, decode (encode i) = .ok i

/-- 30_encoding.md R55, R56: a command word has one meaning: encoding what was decoded gives the word back, every bit of it,
and of what accompanied the word whatever the operation takes (that it ignores the rest is the model's choice, log entry 5).
The same of a flags byte handed over as a request, ack and reserved bits included: that there is such a request, and that its
instruction keeps those bits, is the model's choice too, log entry 6. -/
def Obligations.EncodeOfDecodeIsTheWord : Prop :=
  (∀ (w operand : Word) (input : List Byte) (i : Instr), decode (.command w operand input) = .ok i →
    ∃ operand' input', encode i = .command w operand' input' ∧ (operand' = operand ∨ operand' = 0) ∧
      (input' = input ∨ input' = [])) ∧
  (∀ (b : Byte) (i : Instr), decode (.flagsByte b) = .ok i → encode i = .flagsByte b)

/-- 30_encoding.md R56: the operation table row by row (operation code, bank, immediate, sequence; PACKDRIVE's operand word),
and the refusal of every command word that matches no row, whatever accompanies it. -/
def Obligations.CommandWordsOfTheOperationTable : Prop :=
  (decode (.command 0x00000000 0 []) = .ok (.new .tx) ∧ decode (.command 0x00800000 0 []) = .ok (.new .rx)) ∧
  (∀ n : Half, decode (.command (0x0100#16 ++ n) 0 []) = .ok (.setseq n)) ∧
  (decode (.command 0x02000000 0 []) = .ok (.setcmd .drive) ∧ decode (.command 0x02000001 0 []) = .ok (.setcmd .sleep) ∧
    decode (.command 0x02000002 0 []) = .ok (.setcmd .response)) ∧
  (decode (.command 0x03000000 0 []) = .ok (.setack false) ∧ decode (.command 0x03000001 0 []) = .ok (.setack true)) ∧
  (∀ input : List Byte, decode (.command 0x04000000 0 input) = .ok (.setbody input)) ∧
  (∀ n : Half, decode (.command (0x0500#16 ++ n) 0 []) = .ok (.setlen n)) ∧
  (∀ operand : Word, decode (.command 0x06000000 operand []) =
    .ok (.packdrive (operand.extractLsb' 24 8) (operand.extractLsb' 16 8) (operand.extractLsb' 0 16))) ∧
  decode (.command 0x08000000 0 []) = .ok .encode ∧
  (∀ input : List Byte, decode (.command 0x09800000 0 input) = .ok (.decode input)) ∧
  (∀ input : List Byte, decode (.command 0x0A000000 0 input) = .ok (.cksum input)) ∧
  (∀ input : List Byte, decode (.command 0x0B000000 0 input) = .ok (.verify input)) ∧
  (decode (.command 0x10000000 0 []) = .ok (.getseq .tx) ∧ decode (.command 0x10800000 0 []) = .ok (.getseq .rx)) ∧
  (decode (.command 0x11000000 0 []) = .ok (.getcmd .tx) ∧ decode (.command 0x11800000 0 []) = .ok (.getcmd .rx)) ∧
  (decode (.command 0x12000000 0 []) = .ok (.getack .tx) ∧ decode (.command 0x12800000 0 []) = .ok (.getack .rx)) ∧
  (decode (.command 0x13000000 0 []) = .ok (.getbody .tx) ∧ decode (.command 0x13800000 0 []) = .ok (.getbody .rx)) ∧
  (decode (.command 0x14000000 0 []) = .ok (.getlen .tx) ∧ decode (.command 0x14800000 0 []) = .ok (.getlen .rx)) ∧
  (decode (.command 0x15000000 0 []) = .ok (.getcrc .tx) ∧ decode (.command 0x15800000 0 []) = .ok (.getcrc .rx)) ∧
  decode (.command 0x16800000 0 []) = .ok .getstatus ∧
  (decode (.command 0x17000000 0 []) = .ok (.unpackdrive .tx) ∧
    decode (.command 0x17800000 0 []) = .ok (.unpackdrive .rx)) ∧
  (∀ w : Word, MatchesOperationTable w → ∃ i, decode (.command w 0 []) = .ok i) ∧
  (∀ (w operand : Word) (input : List Byte) (s : State) (rest : List Request),
    s.requests = .command w operand input :: rest → ¬ MatchesOperationTable w → isRefused (step s) = true)

/-- 30_encoding.md R55, R56, a few words written out bit by bit: the opcode-table words of SETSEQ, SETCMD, DECODE, GETCRC and
PACKDRIVE, a word of no row, and a flags byte handed over as a request (the model's choice, log entry 6). -/
def Obligations.SampleTableWordsDecode : Prop :=
  decodeTableWord 32 0b00000001000000000001001000110100 = some (.setseq 0x1234) ∧
  decodeTableWord 32 0b00000010000000000000000000000001 = some (.setcmd .sleep) ∧
  decodeTableWord 32 0b00001001100000000000000000000000 = some (.decode []) ∧
  decodeTableWord 32 0b00010101100000000000000000000000 = some (.getcrc .rx) ∧
  decodeTableWord 64 0x0103005A06000000 = some (.packdrive 1 3 90) ∧
  decodeTableWord 8 0b10101001 = some (.frameDrive true 0b1010) ∧
  decodeTableWord 32 0b00000111000000000000000000000000 = none

/-- 20_memory.md R33: the two-byte little-endian form of a 16-bit value and its inverse. -/
def Obligations.LittleEndianFields : Prop :=
  (∀ v : Half, ∃ b0 b1 : Byte, le16 v = [b0, b1] ∧ b0.toNat = v.toNat % 256 ∧ b1.toNat = v.toNat / 256 ∧
    unle16 b0 b1 = v) ∧
  (∀ b0 b1 : Byte, (unle16 b0 b1).toNat = b0.toNat + 256 * b1.toNat ∧ le16 (unle16 b0 b1) = [b0, b1])

/-- 30_encoding.md R45: the flags byte as it is sent, bits 7:4 zero, and as it is received, bits 7:4 dropped. -/
def Obligations.FlagsByteBothWays : Prop :=
  (∀ d r z a : Bool, (flagsByte d r z a).toNat = d.toNat + 2 * r.toNat + 4 * z.toNat + 8 * a.toNat ∧
    flagsByte d r z a &&& 0xF0#8 = 0) ∧
  (∀ b : Byte, flagsByte (driveBit b) (respBit b) (sleepBit b) (ackBit b) = b &&& 0x0F#8)

/-! ### The step and scripts -/

/-- The oldest request is taken from the queue, and if it decodes to an instruction, the step is that instruction's meaning
on the state with the rest of the queue (10_state.md R20; the queue is the model's, log entry 2). -/
def Obligations.StepRunsTheDecodedInstruction : Prop :=
  ∀ (s : State) (r : Request) (rest : List Request) (i : Instr),
    s.requests = r :: rest → decode r = .ok i → step s = exec i { s with requests := rest }

/-- 60_exceptions.md R97: with no operation issued nothing happens (that the model then steps to the same state is its
choice, log entry 4). -/
def Obligations.StepWithoutRequestChangesNothing : Prop :=
  ∀ s : State, s.requests = [] → step s = .next s

/-- 20_memory.md R39: issuing the operations of a script as requests and taking one step for each gives what applying their
meanings in issue order gives, whatever is still queued behind them. -/
def Obligations.StepsOfAnIssuedScriptApplyItInOrder : Prop :=
  ∀ (is : List Instr) (s : State) (rest : List Request),
    Sys2Proof.core.run is.length { s with requests := is.map encode ++ rest } = execAll is { s with requests := rest }

/-- 10_state.md R25: the empty packet, in both banks after reset, with `RX.STATUS` 0; and 70_reset_and_hazards.md R107:
exactly as if NEW TX and NEW RX had been issued, from any state. -/
def Obligations.ResetIsTwoNews : Prop :=
  (State.reset.tx.seq = 0 ∧ State.reset.tx.drive = false ∧ State.reset.tx.resp = false ∧ State.reset.tx.sleep = false ∧
    State.reset.tx.ack = false ∧ State.reset.tx.blen = 0 ∧ State.reset.tx.len = 6 ∧ State.reset.tx.crc = 0) ∧
  State.reset.rx = State.reset.tx ∧ State.reset.status = 0 ∧
  ∀ s : State, ∃ t, execAll [.new .tx, .new .rx] s = .next t ∧
    t.tx = State.reset.tx ∧ t.rx = State.reset.rx ∧ t.status = State.reset.status

/-! ### Packet construction (40_construct.md) -/

/-- 40_construct.md R61, NEW: every register of the bank, the status for `RX`, nothing else; then GETCMD and ENCODE as the
rule's corner cases say; and a bank that already holds the empty packet keeps its registers (they are the same values). -/
def Obligations.NewMakesTheEmptyPacket : Prop :=
  (encode (.new .tx) = .command 0x00000000 0 [] ∧ encode (.new .rx) = .command 0x00800000 0 []) ∧
  (∀ s : State, ∃ t, exec (.new .tx) s = .next t ∧
    t.tx.seq = 0 ∧ t.tx.drive = false ∧ t.tx.resp = false ∧ t.tx.sleep = false ∧ t.tx.ack = false ∧ t.tx.blen = 0 ∧
    t.tx.len = 6 ∧ t.tx.crc = 0 ∧ t.rx = s.rx ∧ t.status = s.status ∧ t.requests = s.requests ∧
    t.responses = s.responses ++ [⟨.ok, .nothing⟩] ∧
    exec (.getcmd .tx) t = .next { t with responses := t.responses ++ [⟨.malformedCommandFlags, .nothing⟩] } ∧
    exec .encode t = .next { t with
      tx := { t.tx with crc := 0x02 },
      responses := t.responses ++ [⟨.ok, .bytes [0x00, 0x00, 0x00, 0x06, 0x00, 0x02]⟩] }) ∧
  (∀ s : State, ∃ t, exec (.new .rx) s = .next t ∧
    t.rx.seq = 0 ∧ t.rx.drive = false ∧ t.rx.resp = false ∧ t.rx.sleep = false ∧ t.rx.ack = false ∧ t.rx.blen = 0 ∧
    t.rx.len = 6 ∧ t.rx.crc = 0 ∧ t.status = 0 ∧ t.tx = s.tx ∧ t.requests = s.requests ∧
    t.responses = s.responses ++ [⟨.ok, .nothing⟩])

/-- 40_construct.md R62, SETSEQ: `TX.SEQ` and nothing else. -/
def Obligations.SetseqWritesOnlyTheSequence : Prop :=
  ∀ (n : Half) (s : State),
    encode (.setseq n) = .command (0x0100#16 ++ n) 0 [] ∧
    exec (.setseq n) s =
      .next { s with tx := { s.tx with seq := n }, responses := s.responses ++ [⟨.ok, .nothing⟩] }

/-- 40_construct.md R63, SETCMD: exactly the kind's command flag is set afterwards, whatever was set before, and the last
SETCMD wins; `ACK`, the body, `LEN` and everything else are kept; an immediate of 3 or above is refused. -/
def Obligations.SetcmdSetsExactlyOneCommandFlag : Prop :=
  (∀ (kind : CommandKind) (s : State), exec (.setcmd kind) s = .next { s with
      tx := { s.tx with drive := decide (kind = .drive), resp := decide (kind = .response), sleep := decide (kind = .sleep) },
      responses := s.responses ++ [⟨.ok, .nothing⟩] }) ∧
  (encode (.setcmd .drive) = .command 0x02000000 0 [] ∧ encode (.setcmd .sleep) = .command 0x02000001 0 [] ∧
    encode (.setcmd .response) = .command 0x02000002 0 []) ∧
  (∀ (k k' : CommandKind) (s : State), ∃ t, execAll [.setcmd k, .setcmd k', .getcmd .tx] s = .next t ∧
    t.responses.getLast? = some ⟨.ok, .kind k'⟩ ∧
    t.tx.drive = decide (k' = .drive) ∧ t.tx.resp = decide (k' = .response) ∧ t.tx.sleep = decide (k' = .sleep)) ∧
  (∀ (imm : Half) (operand : Word) (input : List Byte) (s : State) (rest : List Request), 3 ≤ imm.toNat →
    s.requests = .command (0x0200#16 ++ imm) operand input :: rest → isRefused (step s) = true)

/-- 40_construct.md R64, SETACK: `TX.ACK` and nothing else; an immediate of 2 or above is refused. -/
def Obligations.SetackWritesOnlyTheAck : Prop :=
  (∀ (v : Bool) (s : State), exec (.setack v) s =
    .next { s with tx := { s.tx with ack := v }, responses := s.responses ++ [⟨.ok, .nothing⟩] }) ∧
  (encode (.setack false) = .command 0x03000000 0 [] ∧ encode (.setack true) = .command 0x03000001 0 []) ∧
  (∀ (imm : Half) (operand : Word) (input : List Byte) (s : State) (rest : List Request), 2 ≤ imm.toNat →
    s.requests = .command (0x0300#16 ++ imm) operand input :: rest → isRefused (step s) = true)

/-- 40_construct.md R65, SETBODY: a body that fits is loaded whole, `BLEN` and `LEN` match it, nothing else changes, and
GETBODY gives it back; a body longer than `BODY_CAP` is refused. On every instance, and on the default one, which `exec` is
(log entry 1). -/
def Obligations.SetbodyLoadsTheBodyAndLength : Prop :=
  ∀ (cap : Nat) (input : List Byte) (s : State), Config.LegalBodyCap cap →
    encode (.setbody input) = .command 0x04000000 0 input ∧
    (input.length ≤ cap → ∃ t, execOn cap (.setbody input) s = .next t ∧ exec (.setbody input) s = .next t ∧
      t.tx.blen.toNat = input.length ∧ t.tx.len.toNat = 6 + input.length ∧
      (∀ a, a < input.length → Memory.readByte t.tx.body a = input[a]?) ∧
      t.tx.seq = s.tx.seq ∧ t.tx.drive = s.tx.drive ∧ t.tx.resp = s.tx.resp ∧ t.tx.sleep = s.tx.sleep ∧
      t.tx.ack = s.tx.ack ∧ t.tx.crc = s.tx.crc ∧ t.rx = s.rx ∧ t.status = s.status ∧ t.requests = s.requests ∧
      t.responses = s.responses ++ [⟨.ok, .nothing⟩] ∧
      exec (.getbody .tx) t = .next { t with responses := t.responses ++ [⟨.ok, .bytes input⟩] }) ∧
    (cap < input.length → execOn cap (.setbody input) s = .refused .bodyTooLong) ∧
    (Config.bodyCap < input.length → exec (.setbody input) s = .refused .bodyTooLong)

/-- 40_construct.md R66, SETLEN: `TX.LEN` and nothing else; if that breaks the length invariant the next ENCODE answers
`InvalidHeaderLength`, and a following SETBODY (of a body that fits the default instance, log entry 1), PACKDRIVE or NEW
repairs `LEN`. -/
def Obligations.SetlenWritesOnlyTheLength : Prop :=
  ∀ (n : Half) (s : State),
    encode (.setlen n) = .command (0x0500#16 ++ n) 0 [] ∧
    exec (.setlen n) s =
      .next { s with tx := { s.tx with len := n }, responses := s.responses ++ [⟨.ok, .nothing⟩] } ∧
    (n.toNat ≠ 6 + s.tx.blen.toNat → execAll [.setlen n, .encode] s = .next { s with
      tx := { s.tx with len := n },
      responses := s.responses ++ [⟨.ok, .nothing⟩, ⟨.invalidHeaderLength, .nothing⟩] }) ∧
    (∀ i : Instr, (i = .new .tx ∨ (∃ d u v, i = .packdrive d u v) ∨
        ∃ input : List Byte, input.length ≤ Config.bodyCap ∧ i = .setbody input) →
      ∃ t, execAll [.setlen n, i] s = .next t ∧ t.tx.len.toNat = 6 + t.tx.blen.toNat)

/-- 70_reset_and_hazards.md R108: two setters that write no common register commute, responses and refusals included, and of
two writes to the same register the later wins. -/
def Obligations.SettersOfDifferentFieldsCommute : Prop :=
  (∀ (i j : Instr) (s : State), isSetter i = true → isSetter j = true →
    (∀ p, ¬ (writes i p = true ∧ writes j p = true)) → execAll [i, j] s = execAll [j, i] s) ∧
  (∀ (i j : Instr) (s t u : State), isSetter i = true → isSetter j = true →
    execAll [i, j] s = .next t → exec j s = .next u → ∀ p, writes j p = true → samePart p t u)

/-! ### ENCODE (41_encode.md) -/

/-- 41_encode.md R67 and 60_exceptions.md R92, ENCODE: with a matching `LEN` the frame is the header, the body and their
checksum, and only `TX.CRC` is written; otherwise `InvalidHeaderLength` and nothing is written. -/
def Obligations.EncodeSerializesTheBank : Prop :=
  encode .encode = .command 0x08000000 0 [] ∧
  (∀ (s : State) (body : List Byte), HoldsBody s.tx body → s.tx.len.toNat = 6 + s.tx.blen.toNat →
    ∃ (hdr : List Byte) (flags c : Byte),
      flags.toNat = s.tx.drive.toNat + 2 * s.tx.resp.toNat + 4 * s.tx.sleep.toNat + 8 * s.tx.ack.toNat ∧
      hdr = [s.tx.seq.extractLsb' 0 8, s.tx.seq.extractLsb' 8 8, flags, s.tx.len.extractLsb' 0 8,
        s.tx.len.extractLsb' 8 8] ∧
      c.toNat = ((hdr ++ body).map popcount).sum % 256 ∧
      exec .encode s = .next { s with
        tx := { s.tx with crc := c },
        responses := s.responses ++ [⟨.ok, .bytes (hdr ++ body ++ [c])⟩] }) ∧
  (∀ s : State, s.tx.len.toNat ≠ 6 + s.tx.blen.toNat →
    exec .encode s = .next { s with responses := s.responses ++ [⟨.invalidHeaderLength, .nothing⟩] })

/-- 41_encode.md R69 (b), (c), (d), (f): an emitted frame has `LEN` bytes, passes VERIFY, has zero reserved bits and fits
the decoder's capacity when the body fits the buffer, whatever the instance's capacity. -/
def Obligations.EmittedFramesVerify : Prop :=
  ∀ (s t : State) (out : List Byte), exec .encode s = .next t → t.responses = s.responses ++ [⟨.ok, .bytes out⟩] →
    out.length = s.tx.len.toNat ∧ out.length = 6 + s.tx.blen.toNat ∧
    (∃ pre, out = pre ++ [t.tx.crc] ∧ t.tx.crc = cksum pre) ∧
    (∀ u : State, exec (.verify out) u = .next { u with responses := u.responses ++ [⟨.ok, .bit true⟩] }) ∧
    (∃ b2, out[2]? = some b2 ∧ b2 &&& 0xF0#8 = 0) ∧
    (∀ cap, s.tx.blen.toNat ≤ cap → out.length ≤ Config.frameCapOf cap)

/-- 41_encode.md R67, corner case: ENCODE may be repeated; with no setter between, the second gives the same response and
changes nothing but the list of responses. -/
def Obligations.EncodeIsRepeatable : Prop :=
  ∀ (s t : State), exec .encode s = .next t →
    ∃ r, t.responses = s.responses ++ [r] ∧ exec .encode t = .next { t with responses := t.responses ++ [r] }

/-- 41_encode.md R69 (e): DECODE of an emitted frame restores the packet: every register, every body byte, the checksum and a
status without CRC_ERR or FRAME_ERR, with FLAG_ERR clear exactly when one command flag is set. On every instance whose
`FRAME_CAP` the frame fits, and on the default one, which `exec` is (log entry 1). -/
def Obligations.DecodeOfEncodedFrameRestoresThePacket : Prop :=
  ∀ (cap : Nat) (s t u : State) (out : List Byte), Config.LegalBodyCap cap →
    exec .encode s = .next t → t.responses = s.responses ++ [⟨.ok, .bytes out⟩] → out.length ≤ Config.frameCapOf cap →
    ∃ v, execOn cap (.decode out) u = .next v ∧ exec (.decode out) u = .next v ∧
      v.rx.seq = t.tx.seq ∧ v.rx.drive = t.tx.drive ∧ v.rx.resp = t.tx.resp ∧ v.rx.sleep = t.tx.sleep ∧
      v.rx.ack = t.tx.ack ∧ v.rx.len = t.tx.len ∧ v.rx.blen = t.tx.blen ∧ v.rx.crc = t.tx.crc ∧
      (∀ a, a < t.tx.blen.toNat → Memory.readByte v.rx.body a = Memory.readByte t.tx.body a) ∧
      statusValid v.status = true ∧ statusCrcErr v.status = false ∧ statusFrameErrBit v.status = false ∧
      (statusFlagErr v.status = false ↔ t.tx.drive.toNat + t.tx.resp.toNat + t.tx.sleep.toNat = 1)

/-! ### DECODE (42_decode.md) -/

/-- 42_decode.md R70 and R72, DECODE of a byte sequence that passes the structural checks: every field of `RX`, the status,
the code by priority and the record, and nothing of ENC. On every instance whose buffer the body fits, and on the default one,
which `exec` is (log entry 1). -/
def Obligations.DecodeDeliversTheFrame : Prop :=
  ∀ (cap : Nat) (b0 b1 fl l0 l1 c : Byte) (body : List Byte) (s : State), Config.LegalBodyCap cap →
    l0.toNat + 256 * l1.toNat = 6 + body.length → body.length ≤ cap →
    ∃ (t : State) (crcErr flagErr : Bool),
      (crcErr = true ↔ (([b0, b1, fl, l0, l1] ++ body).map popcount).sum % 256 ≠ c.toNat) ∧
      (flagErr = true ↔ (fl.getLsbD 0).toNat + (fl.getLsbD 1).toNat + (fl.getLsbD 2).toNat ≠ 1) ∧
      execOn cap (.decode ([b0, b1, fl, l0, l1] ++ body ++ [c])) s = .next t ∧
      exec (.decode ([b0, b1, fl, l0, l1] ++ body ++ [c])) s = .next t ∧
      t.rx.seq.toNat = b0.toNat + 256 * b1.toNat ∧
      t.rx.drive = fl.getLsbD 0 ∧ t.rx.resp = fl.getLsbD 1 ∧ t.rx.sleep = fl.getLsbD 2 ∧ t.rx.ack = fl.getLsbD 3 ∧
      t.rx.len.toNat = l0.toNat + 256 * l1.toNat ∧ t.rx.blen.toNat = body.length ∧ t.rx.crc = c ∧
      (∀ a, a < body.length → Memory.readByte t.rx.body a = body[a]?) ∧
      t.status.toNat = 1 + 4 * crcErr.toNat + 8 * flagErr.toNat ∧
      t.tx = s.tx ∧ t.requests = s.requests ∧
      t.responses = s.responses ++
        [⟨if crcErr then .checksumMismatch else if flagErr then .malformedCommandFlags else .ok,
          .record ⟨t.rx.seq, t.rx.drive, t.rx.resp, t.rx.sleep, t.rx.ack, t.rx.len, t.rx.blen, body, c, t.status⟩⟩]

/-- 60_exceptions.md R93: any of the four structural conditions gives `TruncatedOrOversizedFrame`, no data, the empty packet
in `RX` and `STATUS = 0x02`, and nothing else changes; and no other byte sequence gives that code. On every instance, and on
the default one, which `exec` is (log entry 1). -/
def Obligations.DecodeStructuralFailure : Prop :=
  (∀ input : List Byte, encode (.decode input) = .command 0x09800000 0 input) ∧
  (∀ (cap : Nat) (input : List Byte) (s : State), Config.LegalBodyCap cap → StructurallyBad cap input → ∃ t : State,
    execOn cap (.decode input) s = .next t ∧ (cap = Config.bodyCap → exec (.decode input) s = .next t) ∧
    t.rx.seq = 0 ∧ t.rx.drive = false ∧ t.rx.resp = false ∧ t.rx.sleep = false ∧ t.rx.ack = false ∧ t.rx.blen = 0 ∧
    t.rx.len = 6 ∧ t.rx.crc = 0 ∧ t.status = 0x02 ∧ t.tx = s.tx ∧ t.requests = s.requests ∧
    t.responses = s.responses ++ [⟨.truncatedOrOversizedFrame, .nothing⟩]) ∧
  (∀ (cap : Nat) (input : List Byte) (s t : State), Config.LegalBodyCap cap →
    execOn cap (.decode input) s = .next t ∨ (cap = Config.bodyCap ∧ exec (.decode input) s = .next t) →
    lastCode t = some .truncatedOrOversizedFrame → StructurallyBad cap input)

/-- 42_decode.md R73 (a), (b): DECODE has an outcome for every byte sequence, and `RX`, `RX.STATUS` and the response depend on
that sequence alone. -/
def Obligations.DecodeIsTotalAndForgetsTheOldPacket : Prop :=
  ∀ (input : List Byte) (s s' : State), ∃ (t t' : State) (r : Response),
    exec (.decode input) s = .next t ∧ exec (.decode input) s' = .next t' ∧
    t.rx = t'.rx ∧ t.status = t'.status ∧ t.responses = s.responses ++ [r] ∧ t'.responses = s'.responses ++ [r]

/-- 42_decode.md R73 (c): encoding the packet of a frame that decoded `OK` gives the frame back with the flags byte's high
nibble cleared and the checksum of that; it is the frame itself exactly when that nibble was 0. -/
def Obligations.EncodeOfDecodedFrameGivesItBack : Prop :=
  ∀ (frame : List Byte) (s t u : State) (crc b2 : Byte), exec (.decode frame) s = .next t → lastCode t = some .ok →
    frame[2]? = some b2 → u.tx = { t.rx with crc := crc } →
    ∃ (v : State) (out : List Byte), exec .encode u = .next v ∧ v.responses = u.responses ++ [⟨.ok, .bytes out⟩] ∧
      out = (frame.dropLast.set 2 (b2 &&& 0x0F#8)) ++ [cksum (frame.dropLast.set 2 (b2 &&& 0x0F#8))] ∧
      (out = frame ↔ b2 &&& 0xF0#8 = 0)

/-- 42_decode.md R73 (d): flipping one bit of a frame that decoded `OK` is always reported: in the length field as a
structural error, anywhere else, the last byte included, as a checksum mismatch. -/
def Obligations.SingleBitFlipIsReported : Prop :=
  ∀ (frame : List Byte) (s t s' : State) (k j : Nat), exec (.decode frame) s = .next t → lastCode t = some .ok →
    k < frame.length → j < 8 →
    ∃ t', exec (.decode (flipBit frame k j)) s' = .next t' ∧
      lastCode t' = some (if k = 3 ∨ k = 4 then .truncatedOrOversizedFrame else .checksumMismatch)

/-- 42_decode.md R73 (e): one flip from 0 to 1 and one from 1 to 0, outside the length field and the last byte, are not
detected by the checksum. -/
def Obligations.OppositeFlipsPassTheChecksum : Prop :=
  ∀ (frame : List Byte) (s t s' : State) (k j k' j' : Nat), exec (.decode frame) s = .next t → lastCode t = some .ok →
    k + 1 < frame.length → k ≠ 3 → k ≠ 4 → j < 8 → bitAt frame k j = false →
    k' + 1 < frame.length → k' ≠ 3 → k' ≠ 4 → j' < 8 → bitAt frame k' j' = true →
    ∃ t', exec (.decode (flipBit (flipBit frame k j) k' j')) s' = .next t' ∧
      statusValid t'.status = true ∧ statusCrcErr t'.status = false

/-- 44_access.md R81: after a DECODE with `STATUS.VALID = 1`, GETCMD RX raises `MalformedCommandFlags` exactly when
`STATUS.FLAG_ERR = 1`, and otherwise answers a kind. -/
def Obligations.GetcmdAgreesWithFlagErr : Prop :=
  ∀ (input : List Byte) (s t : State), exec (.decode input) s = .next t → statusValid t.status = true →
    (statusFlagErr t.status = true ↔
      exec (.getcmd .rx) t = .next { t with responses := t.responses ++ [⟨.malformedCommandFlags, .nothing⟩] }) ∧
    (statusFlagErr t.status = false ↔
      ∃ k, exec (.getcmd .rx) t = .next { t with responses := t.responses ++ [⟨.ok, .kind k⟩] })

/-! ### The checksum (43_checksum.md) -/

/-- 43_checksum.md R74, R75: popcount counts the set bits; the checksum is the sum of the popcounts modulo 256, 0 for the
empty sequence, the same from an 8-bit accumulator that wraps, and the same for every permutation. -/
def Obligations.ChecksumIsThePopcountSum : Prop :=
  (∀ b : Byte, popcount b = (List.range 8).countP (fun j => b.getLsbD j) ∧ popcount b ≤ 8) ∧
  (∀ bytes : List Byte, (cksum bytes).toNat = (bytes.map popcount).sum % 256) ∧
  cksum [] = 0 ∧
  (∀ bytes : List Byte, cksum bytes = bytes.foldl (fun acc b => acc + BitVec.ofNat 8 (popcount b)) 0#8) ∧
  (∀ bytes bytes' : List Byte, bytes.Perm bytes' → cksum bytes = cksum bytes')

/-- 43_checksum.md R76, CKSUM: the checksum of all bytes, the last included; no state is touched. -/
def Obligations.CksumAnswersTheChecksum : Prop :=
  ∀ (input : List Byte) (s : State),
    encode (.cksum input) = .command 0x0A000000 0 input ∧
    ∃ c : Byte, c.toNat = (input.map popcount).sum % 256 ∧
      exec (.cksum input) s = .next { s with responses := s.responses ++ [⟨.ok, .u8 c⟩] }

/-- 43_checksum.md R77, VERIFY: false for sequences of length 0 and 1, else whether the last byte is the checksum of the
earlier ones, frame or not; the code is `OK` either way and no state is touched; and DECODE's checksum check is VERIFY of the
whole input. -/
def Obligations.VerifyTestsTheTrailingByte : Prop :=
  (∀ input : List Byte, encode (.verify input) = .command 0x0B000000 0 input) ∧
  (∀ (input : List Byte) (s : State), input.length ≤ 1 →
    exec (.verify input) s = .next { s with responses := s.responses ++ [⟨.ok, .bit false⟩] }) ∧
  (∀ (pre : List Byte) (c : Byte) (s : State), pre ≠ [] →
    exec (.verify (pre ++ [c])) s = .next { s with
      responses := s.responses ++ [⟨.ok, .bit (decide ((pre.map popcount).sum % 256 = c.toNat))⟩] }) ∧
  (∀ (input : List Byte) (s t u : State), exec (.decode input) s = .next t → statusValid t.status = true →
    exec (.verify input) u = .next { u with
      responses := u.responses ++ [⟨.ok, .bit (!statusCrcErr t.status)⟩] })

/-! ### Accessors (44_access.md) -/

/-- 44_access.md R80, R82, R84, R85, R86: GETSEQ, GETACK, GETLEN, GETCRC and GETSTATUS answer the stored value and change
nothing. -/
def Obligations.AccessorsAnswerTheStoredValue : Prop :=
  (∀ (b : BankId) (s : State),
    exec (.getseq b) s = .next { s with responses := s.responses ++ [⟨.ok, .u16 (s.bank b).seq⟩] } ∧
    exec (.getack b) s = .next { s with responses := s.responses ++ [⟨.ok, .bit (s.bank b).ack⟩] } ∧
    exec (.getlen b) s = .next { s with responses := s.responses ++ [⟨.ok, .u16 (s.bank b).len⟩] } ∧
    exec (.getcrc b) s = .next { s with responses := s.responses ++ [⟨.ok, .u8 (s.bank b).crc⟩] } ∧
    exec .getstatus s = .next { s with responses := s.responses ++ [⟨.ok, .u8 s.status⟩] }) ∧
  (∀ s : State, s.bank .tx = s.tx ∧ s.bank .rx = s.rx) ∧
  (encode (.getseq .tx) = .command 0x10000000 0 [] ∧ encode (.getseq .rx) = .command 0x10800000 0 [] ∧
    encode (.getack .tx) = .command 0x12000000 0 [] ∧ encode (.getack .rx) = .command 0x12800000 0 [] ∧
    encode (.getlen .tx) = .command 0x14000000 0 [] ∧ encode (.getlen .rx) = .command 0x14800000 0 [] ∧
    encode (.getcrc .tx) = .command 0x15000000 0 [] ∧ encode (.getcrc .rx) = .command 0x15800000 0 [] ∧
    encode .getstatus = .command 0x16800000 0 [])

/-- 44_access.md R81 and 60_exceptions.md R95, GETCMD: the truth table on (SLEEP, RESP, DRIVE), for either value of `ACK`; no
state changes, on the error either. -/
def Obligations.GetcmdTruthTable : Prop :=
  (encode (.getcmd .tx) = .command 0x11000000 0 [] ∧ encode (.getcmd .rx) = .command 0x11800000 0 []) ∧
  ∀ (b : BankId) (s : State), exec (.getcmd b) s = .next { s with
    responses := s.responses ++ [
      match (s.bank b).sleep, (s.bank b).resp, (s.bank b).drive with
      | false, false, true => ⟨.ok, .kind .drive⟩
      | false, true, false => ⟨.ok, .kind .response⟩
      | true, false, false => ⟨.ok, .kind .sleep⟩
      | false, false, false => ⟨.malformedCommandFlags, .nothing⟩
      | false, true, true => ⟨.malformedCommandFlags, .nothing⟩
      | true, false, true => ⟨.malformedCommandFlags, .nothing⟩
      | true, true, false => ⟨.malformedCommandFlags, .nothing⟩
      | true, true, true => ⟨.malformedCommandFlags, .nothing⟩] }

/-- 44_access.md R83, GETBODY: the body's `BLEN` bytes, uninterpreted, and no state changes. -/
def Obligations.GetbodyAnswersTheBody : Prop :=
  (encode (.getbody .tx) = .command 0x13000000 0 [] ∧ encode (.getbody .rx) = .command 0x13800000 0 []) ∧
  ∀ (b : BankId) (s : State) (body : List Byte), HoldsBody (s.bank b) body →
    exec (.getbody b) s = .next { s with responses := s.responses ++ [⟨.ok, .bytes body⟩] }

/-! ### The Drive body (45_drive_body.md) -/

/-- 45_drive_body.md R87, PACKDRIVE: the four bytes, `BLEN = 4`, `LEN = 10`, no flag and nothing else; the effect of the
SETBODY of those bytes; every operand value is packed as given. -/
def Obligations.PackdriveWritesTheDriveBody : Prop :=
  ∀ (d u : Byte) (v : Half) (s : State),
    (∃ w : Word, encode (.packdrive d u v) = .command 0x06000000 w [] ∧
      w.toNat = d.toNat * 2 ^ 24 + u.toNat * 2 ^ 16 + v.toNat) ∧
    exec (.packdrive d u v) s = exec (.setbody [d, u, v.extractLsb' 0 8, v.extractLsb' 8 8]) s ∧
    ∃ t, exec (.packdrive d u v) s = .next t ∧
      Memory.readByte t.tx.body 0 = some d ∧ Memory.readByte t.tx.body 1 = some u ∧
      Memory.readByte t.tx.body 2 = some (v.extractLsb' 0 8) ∧ Memory.readByte t.tx.body 3 = some (v.extractLsb' 8 8) ∧
      t.tx.blen = 4 ∧ t.tx.len = 10 ∧
      t.tx.seq = s.tx.seq ∧ t.tx.drive = s.tx.drive ∧ t.tx.resp = s.tx.resp ∧ t.tx.sleep = s.tx.sleep ∧
      t.tx.ack = s.tx.ack ∧ t.tx.crc = s.tx.crc ∧ t.rx = s.rx ∧ t.status = s.status ∧ t.requests = s.requests ∧
      t.responses = s.responses ++ [⟨.ok, .nothing⟩]

/-- 45_drive_body.md R88, UNPACKDRIVE: the raw triple of a 4-byte body, whatever the flags and the status; a body of another
length is refused. -/
def Obligations.UnpackdriveAnswersTheTriple : Prop :=
  (encode (.unpackdrive .tx) = .command 0x17000000 0 [] ∧ encode (.unpackdrive .rx) = .command 0x17800000 0 []) ∧
  (∀ (b : BankId) (s : State) (b0 b1 b2 b3 : Byte), HoldsBody (s.bank b) [b0, b1, b2, b3] →
    ∃ v : Half, v.toNat = b2.toNat + 256 * b3.toNat ∧
      exec (.unpackdrive b) s = .next { s with responses := s.responses ++ [⟨.ok, .drive b0 b1 v⟩] }) ∧
  (∀ (b : BankId) (s : State), (s.bank b).blen.toNat ≠ 4 → exec (.unpackdrive b) s = .refused .bodyNotDriveSize)

/-- 45_drive_body.md R89: the value predicates, and the round trip of every operand value through `TX` and across ENCODE and
DECODE into `RX`. -/
def Obligations.DriveRoundTrip : Prop :=
  (∀ c : Byte, (dirname c = some .forward ↔ c = 1) ∧ (dirname c = some .backward ↔ c = 2) ∧
    (dirname c = some .right ↔ c = 3) ∧ (dirname c = some .left ↔ c = 4) ∧
    (dirname c = none ↔ c = 0 ∨ 5 ≤ c.toNat)) ∧
  (∀ (d u : Byte) (v : Half), driveInContract d u v = true ↔
    1 ≤ d.toNat ∧ d.toNat ≤ 4 ∧ 80 ≤ v.toNat ∧ v.toNat ≤ 100) ∧
  (∀ (d u : Byte) (v : Half) (s : State),
    (∃ t, execAll [.packdrive d u v, .unpackdrive .tx] s = .next t ∧
      t.responses = s.responses ++ [⟨.ok, .nothing⟩, ⟨.ok, .drive d u v⟩]) ∧
    (∃ (t : State) (out : List Byte), execAll [.packdrive d u v, .encode] s = .next t ∧
      t.responses = s.responses ++ [⟨.ok, .nothing⟩, ⟨.ok, .bytes out⟩] ∧
      ∃ w, execAll [.decode out, .unpackdrive .rx] t = .next w ∧ w.responses.getLast? = some ⟨.ok, .drive d u v⟩))

/-- 30_encoding.md R59: the three expansions, the packet each leaves in bank `TX`, and the frame that ENCODE then
produces; RESPPKT for every body that fits the default instance (log entry 1). -/
def Obligations.PseudoOperationsBuildTheirPackets : Prop :=
  ∀ (n : Half) (s : State),
    (∀ (d u : Byte) (v : Half),
      drivepkt n d u v = [.new .tx, .setseq n, .setcmd .drive, .packdrive d u v] ∧
      ∃ t t' c, execAll (drivepkt n d u v) s = .next t ∧ t.tx.seq = n ∧
        t.tx.drive = true ∧ t.tx.resp = false ∧ t.tx.sleep = false ∧ t.tx.ack = false ∧
        HoldsBody t.tx [d, u, v.extractLsb' 0 8, v.extractLsb' 8 8] ∧
        exec .encode t = .next t' ∧ t'.responses = t.responses ++ [⟨.ok, .bytes
          [n.extractLsb' 0 8, n.extractLsb' 8 8, 0x01, 0x0A, 0x00, d, u, v.extractLsb' 0 8, v.extractLsb' 8 8, c]⟩] ∧
        c = cksum [n.extractLsb' 0 8, n.extractLsb' 8 8, 0x01, 0x0A, 0x00, d, u, v.extractLsb' 0 8, v.extractLsb' 8 8]) ∧
    (sleeppkt n = [.new .tx, .setseq n, .setcmd .sleep] ∧
      ∃ t t' c, execAll (sleeppkt n) s = .next t ∧ t.tx.seq = n ∧
        t.tx.drive = false ∧ t.tx.resp = false ∧ t.tx.sleep = true ∧ t.tx.ack = false ∧ HoldsBody t.tx [] ∧
        exec .encode t = .next t' ∧ t'.responses = t.responses ++ [⟨.ok, .bytes
          [n.extractLsb' 0 8, n.extractLsb' 8 8, 0x04, 0x06, 0x00, c]⟩] ∧
        c = cksum [n.extractLsb' 0 8, n.extractLsb' 8 8, 0x04, 0x06, 0x00]) ∧
    (∀ body : List Byte,
      resppkt n body = [.new .tx, .setseq n, .setcmd .response, .setbody body] ∧
      (body.length ≤ Config.bodyCap → ∃ t t' l0 l1 c, execAll (resppkt n body) s = .next t ∧ t.tx.seq = n ∧
        t.tx.drive = false ∧ t.tx.resp = true ∧ t.tx.sleep = false ∧ t.tx.ack = false ∧ HoldsBody t.tx body ∧
        l0.toNat + 256 * l1.toNat = 6 + body.length ∧
        exec .encode t = .next t' ∧ t'.responses = t.responses ++ [⟨.ok, .bytes
          ([n.extractLsb' 0 8, n.extractLsb' 8 8, 0x02, l0, l1] ++ body ++ [c])⟩] ∧
        c = cksum ([n.extractLsb' 0 8, n.extractLsb' 8 8, 0x02, l0, l1] ++ body)))

/-! ### Command kinds on the wire (30_encoding.md R52) -/

/-- 30_encoding.md R52: the three `FRAME_FLAGS` rows answer their kind, whatever the ack and reserved bits, and touch no state
(that a flags byte can be handed over by itself is the model's choice, log entry 6). -/
def Obligations.FrameKindsAnswerTheirKind : Prop :=
  ∀ (ack : Bool) (reserved : BitVec 4) (s : State),
    exec (.frameDrive ack reserved) s = .next { s with responses := s.responses ++ [⟨.ok, .kind .drive⟩] } ∧
    exec (.frameResponse ack reserved) s = .next { s with responses := s.responses ++ [⟨.ok, .kind .response⟩] } ∧
    exec (.frameSleep ack reserved) s = .next { s with responses := s.responses ++ [⟨.ok, .kind .sleep⟩] }

/-- 30_encoding.md R52: a flags byte handed over by itself selects its kind by bits 2:0 alone, and any value of them but the
three one-hot ones is `MalformedCommandFlags` (log entry 6). -/
def Obligations.FlagsByteSelectsTheKind : Prop :=
  ∀ (b : Byte) (s : State) (rest : List Request), s.requests = .flagsByte b :: rest →
    step s = .next { s with
      requests := rest,
      responses := s.responses ++ [
        if b &&& 0x07#8 = 0x01 then ⟨.ok, .kind .drive⟩
        else if b &&& 0x07#8 = 0x02 then ⟨.ok, .kind .response⟩
        else if b &&& 0x07#8 = 0x04 then ⟨.ok, .kind .sleep⟩
        else ⟨.malformedCommandFlags, .nothing⟩] }

/-- 30_encoding.md R52 with 44_access.md R81: after a DECODE that stored a frame, GETCMD RX answers what the frame's flags
byte answers when it is handed over by itself (log entry 6). -/
def Obligations.FlagsByteAgreesWithDecodeThenGetcmd : Prop :=
  ∀ (input : List Byte) (s t : State), exec (.decode input) s = .next t → statusValid t.status = true →
    ∃ b, input[2]? = some b ∧
      ∀ rest, step { t with requests := .flagsByte b :: rest } = exec (.getcmd .rx) { t with requests := rest }

/-! ### The whole machine -/

/-- 10_state.md R21: the length invariant holds after reset, NEW, SETBODY, PACKDRIVE and a DECODE that sets VALID, in the bank
each writes; and SETLEN can make it false. -/
def Obligations.WhoKeepsTheLengthInvariant : Prop :=
  State.reset.tx.len.toNat = 6 + State.reset.tx.blen.toNat ∧ State.reset.rx.len.toNat = 6 + State.reset.rx.blen.toNat ∧
  (∀ (b : BankId) (s t : State), exec (.new b) s = .next t → (t.bank b).len.toNat = 6 + (t.bank b).blen.toNat) ∧
  (∀ (input : List Byte) (s t : State), exec (.setbody input) s = .next t → t.tx.len.toNat = 6 + t.tx.blen.toNat) ∧
  (∀ (d u : Byte) (v : Half) (s t : State), exec (.packdrive d u v) s = .next t →
    t.tx.len.toNat = 6 + t.tx.blen.toNat) ∧
  (∀ (input : List Byte) (s t : State), exec (.decode input) s = .next t → statusValid t.status = true →
    t.rx.len.toNat = 6 + t.rx.blen.toNat) ∧
  (∀ s : State, ∃ (n : Half) (t : State), exec (.setlen n) s = .next t ∧ t.tx.len.toNat ≠ 6 + t.tx.blen.toNat)

/-- The invariant holds after reset, on every instance (10_state.md R25). -/
def Obligations.InvariantHoldsAfterReset : Prop := Inv State.reset ∧ ∀ cap, InvOn cap State.reset

/-- Every step keeps the invariant `Inv`: the buffers hold exactly their bodies within capacity (10_state.md R17, R19), `TX`
has at most one command flag (41_encode.md R68), `RX.LEN` counts the RX body, and `RX.STATUS` is a legal value that agrees
with `RX` (R22). The same of every other instance and its own capacity. -/
def Obligations.EveryStepKeepsTheInvariant : Prop :=
  (∀ s t : State, Inv s → step s = .next t → Inv t) ∧
  (∀ (cap : Nat) (s t : State), Config.LegalBodyCap cap → InvOn cap s → stepOn cap s = .next t → InvOn cap t)

/-- Every step keeps both buffers in their canonical form, from any state that has it. -/
def Obligations.EveryStepKeepsTheBuffersCanonical : Prop :=
  ∀ s t : State, Memory.wf s.tx.body = true → Memory.wf s.rx.body = true → step s = .next t →
    Memory.wf t.tx.body = true ∧ Memory.wf t.rx.body = true

/-- 60_exceptions.md R101 and 20_memory.md R31: in a state satisfying `Inv` every operation completes, but for a SETBODY over
capacity and an UNPACKDRIVE of a body that is not 4 bytes, which are refused; no access ever leaves its
body. The capacity is that of the default instance, which `exec` is (log entry 1). -/
def Obligations.EveryOperationCompletesUnlessRefused : Prop :=
  ∀ (i : Instr) (s : State), Inv s →
    (isRefused (exec i s) = true ∧
      ((∃ input : List Byte, i = .setbody input ∧ Config.bodyCap < input.length) ∨
        ∃ b, i = .unpackdrive b ∧ (s.bank b).blen.toNat ≠ 4)) ∨
    (¬ (∃ input : List Byte, i = .setbody input ∧ Config.bodyCap < input.length) ∧
      ¬ (∃ b, i = .unpackdrive b ∧ (s.bank b).blen.toNat ≠ 4) ∧ ∃ t, exec i s = .next t)

/-- 10_state.md R26, the `w` entries: an operation leaves every part of the state outside its row as it was, answers exactly
one response and issues no request. -/
def Obligations.OperationsWriteOnlyTheirRow : Prop :=
  ∀ (i : Instr) (s t : State), exec i s = .next t →
    (∀ p, writes i p = false → samePart p s t) ∧ t.requests = s.requests ∧ ∃ r, t.responses = s.responses ++ [r]

/-- 10_state.md R26, the `r` entries, and R24: from two states that agree on the parts an operation reads, it gives the same
response, what agreed before still agrees, and what it writes agrees (of ENCODE only if it agreed or the bank encodes, since a
failed ENCODE writes nothing). -/
def Obligations.OperationsReadOnlyTheirRow : Prop :=
  ∀ (i : Instr) (s t s' : State), (∀ p, reads i p = true → samePart p s t) → exec i s = .next s' →
    ∃ (t' : State) (r : Response), exec i t = .next t' ∧ s'.responses = s.responses ++ [r] ∧
      t'.responses = t.responses ++ [r] ∧
      (∀ p, samePart p s t → samePart p s' t') ∧
      (∀ p, writes i p = true → (i = .encode → r.code = .ok) → samePart p s' t')

/-- 60_exceptions.md R104 and 20_memory.md R39: an operation of ENC and one of DEC commute: the order changes neither bank,
nor the status, nor either response. -/
def Obligations.EncAndDecAreIndependent : Prop :=
  ∀ (i j : Instr) (s t : State), ofEnc i = true → ofDec j = true → execAll [i, j] s = .next t →
    ∃ (t' : State) (ri rj : Response), execAll [j, i] s = .next t' ∧ t'.tx = t.tx ∧ t'.rx = t.rx ∧ t'.status = t.status ∧
      t'.requests = t.requests ∧ t.responses = s.responses ++ [ri, rj] ∧ t'.responses = s.responses ++ [rj, ri]

/-! ### The capacity parameter (00_scope.md R8) -/

/-- 00_scope.md R8: `BODY_CAP` defaults to `MAX_BODY` = 65529 and `FRAME_CAP` is then 65535; and the machine is that instance
(the model's choice, log entry 1). -/
def Obligations.TheMachineIsTheDefaultInstance : Prop :=
  Config.bodyCap = 65529 ∧ Config.frameCap = 65535 ∧ Config.LegalBodyCap Config.bodyCap ∧
  (∀ (i : Instr) (s : State), exec i s = execOn Config.bodyCap i s) ∧ (∀ s : State, step s = stepOn Config.bodyCap s)

/-- 00_scope.md R8 with 40_construct.md R65 and 42_decode.md R70: an instance of another capacity differs from the default one
in two things only: a SETBODY of more than `BODY_CAP` bytes is refused, and a DECODE of more than `FRAME_CAP` bytes is a
structural failure. -/
def Obligations.CapacityMattersOnlyBeyondIt : Prop :=
  ∀ (cap : Nat) (i : Instr) (s : State), Config.LegalBodyCap cap →
    (∀ input : List Byte, i = .setbody input → cap < input.length → execOn cap i s = .refused .bodyTooLong) ∧
    (∀ input : List Byte, i = .decode input → 6 + cap < input.length → execOn cap i s = .next { s with
      rx := Bank.empty, status := 0x02, responses := s.responses ++ [⟨.truncatedOrOversizedFrame, .nothing⟩] }) ∧
    ((∀ input : List Byte, i = .setbody input → input.length ≤ cap) →
      (∀ input : List Byte, i = .decode input → input.length ≤ 6 + cap) → execOn cap i s = exec i s)
end

