-- ==== Sys2Proof/Laws/Checksum.lean ====
section
/-!
SUPPORT. The popcount sum and the checksum (43_checksum.md R74, R75).
-/

namespace Sys2Proof.Machine

theorem popcount_le (b : Byte) : popcount b ≤ 8 := by
  unfold popcount
  have h (x : Bool) : x.toNat ≤ 1 := Bool.toNat_le x
  have := h (b.getLsbD 0); have := h (b.getLsbD 1); have := h (b.getLsbD 2); have := h (b.getLsbD 3)
  have := h (b.getLsbD 4); have := h (b.getLsbD 5); have := h (b.getLsbD 6); have := h (b.getLsbD 7)
  omega

@[simp] theorem popcountSum_nil : popcountSum [] = 0 := rfl

@[simp] theorem popcountSum_cons (b : Byte) (bs : List Byte) : popcountSum (b :: bs) = popcount b + popcountSum bs := rfl

@[simp] theorem popcountSum_append (xs ys : List Byte) : popcountSum (xs ++ ys) = popcountSum xs + popcountSum ys := by
  induction xs with
  | nil => simp
  | cons x xs ih => simp [ih]; omega

theorem popcountSum_eq_sum_map (bytes : List Byte) : popcountSum bytes = (bytes.map popcount).sum := by
  induction bytes with
  | nil => rfl
  | cons b bs ih => simp [ih]

theorem cksum_toNat (bytes : List Byte) : (cksum bytes).toNat = popcountSum bytes % 256 := by
  simp [cksum]

/-- Replacing one byte exchanges its popcount in the sum. -/
theorem popcountSum_set (bytes : List Byte) (k : Nat) (b b' : Byte) (h : bytes[k]? = some b) :
    popcountSum (bytes.set k b') + popcount b = popcountSum bytes + popcount b' := by
  induction bytes generalizing k with
  | nil => simp at h
  | cons c cs ih =>
    cases k with
    | zero =>
      obtain rfl : c = b := by simpa using h
      simp; omega
    | succ k =>
      have := ih k (by simpa using h)
      simp; omega

/-- VERIFY of a sequence with a nonempty payload (43_checksum.md R77). -/
theorem verifyBytes_snoc (pre : List Byte) (c : Byte) (h : pre ≠ []) :
    verifyBytes (pre ++ [c]) = decide (cksum pre = c) := by
  have hl : ¬ (pre ++ [c]).length ≤ 1 := by
    have := List.length_pos_iff.mpr h
    simp only [List.length_append, List.length_cons, List.length_nil]
    omega
  rw [verifyBytes, if_neg hl, List.dropLast_concat, List.getLast?_concat]
  simp only [Option.some.injEq]

end Sys2Proof.Machine
end

