-- ==== Sys2Proof/Laws/Config.lean ====
section
/-!
SUPPORT. The numbers behind the names of 00_scope.md R7, and the default and the range of `BODY_CAP` (R8).
-/

namespace Sys2Proof.Config

@[simp] theorem headerSize_eq : headerSize = 5 := by decide
@[simp] theorem bodyOff_eq : bodyOff = 5 := by decide
@[simp] theorem checksumSize_eq : checksumSize = 1 := by decide
@[simp] theorem minFrame_eq : minFrame = 6 := by decide
@[simp] theorem maxFrame_eq : maxFrame = 65535 := by decide
@[simp] theorem maxBody_eq : maxBody = 65529 := by decide
@[simp] theorem driveBodySize_eq : driveBodySize = 4 := by decide
@[simp] theorem frameCapOf_eq (cap : Nat) : frameCapOf cap = cap + 6 := by unfold frameCapOf; simp
@[simp] theorem frameCap_eq : frameCap = bodyCap + 6 := by unfold frameCap; simp

/-- `BODY_CAP` at its default is `MAX_BODY` (R8). -/
theorem bodyCap_eq : bodyCap = 65529 := by decide

/-- The default capacity is a legal one (R8). -/
theorem bodyCap_legal : LegalBodyCap bodyCap := by decide

/-- The default capacity in numbers, for arithmetic. -/
theorem bodyCap_range : 4 ≤ bodyCap ∧ bodyCap ≤ 65529 := by decide

/-- `BODY_CAP` lies between `DRIVE_BODY_SIZE` and `MAX_BODY` (R8). -/
theorem legalBodyCap_iff (cap : Nat) : LegalBodyCap cap ↔ 4 ≤ cap ∧ cap ≤ 65529 := by simp [LegalBodyCap]

end Sys2Proof.Config
end

