-- ==== Sys2Proof/Laws/Encoding.lean ====
section
/-!
SUPPORT. The fields of a command word and of PACKDRIVE's operand word (30_encoding.md R55), put together and taken apart.
-/

namespace Sys2Proof

theorem append_toNat {m n : Nat} (x : BitVec m) (y : BitVec n) : (x ++ y).toNat = x.toNat * 2 ^ n + y.toNat := by
  rw [BitVec.toNat_append, ← Nat.shiftLeft_add_eq_or_of_lt y.isLt, Nat.shiftLeft_eq]

theorem commandWord_toNat (op : BitVec 8) (bk : Bool) (imm : Half) :
    (commandWord op bk imm).toNat = op.toNat * 2 ^ 24 + bk.toNat * 2 ^ 23 + imm.toNat := by
  have h : (commandWord op bk imm).toNat = ((op.toNat * 2 ^ 1 + bk.toNat) * 2 ^ 7 + 0) * 2 ^ 16 + imm.toNat := by
    unfold commandWord
    rw [append_toNat, append_toNat, append_toNat, BitVec.toNat_ofBool, BitVec.toNat_zero]
  rw [h]
  omega

theorem opField_toNat (w : Word) : (opField w).toNat = w.toNat / 2 ^ 24 := by
  have := w.isLt
  simp only [opField, BitVec.extractLsb'_toNat, Nat.shiftRight_eq_div_pow]
  omega

theorem zeroField_toNat (w : Word) : (zeroField w).toNat = w.toNat / 2 ^ 16 % 2 ^ 7 := by
  simp only [zeroField, BitVec.extractLsb'_toNat, Nat.shiftRight_eq_div_pow]

theorem immField_toNat (w : Word) : (immField w).toNat = w.toNat % 2 ^ 16 := by
  simp only [immField, BitVec.extractLsb'_toNat, Nat.shiftRight_eq_div_pow]
  omega

theorem bankField_toNat (w : Word) : (bankField w).toNat = w.toNat / 2 ^ 23 % 2 := by
  rw [bankField, BitVec.getLsbD, Nat.testBit_eq_decide_div_mod_eq]
  generalize hx : w.toNat / 2 ^ 23 % 2 = x
  have hx2 : x < 2 := by omega
  rcases (by omega : x = 0 ∨ x = 1) with rfl | rfl <;> rfl

@[simp] theorem opField_commandWord (op : BitVec 8) (bk : Bool) (imm : Half) : opField (commandWord op bk imm) = op := by
  apply BitVec.eq_of_toNat_eq
  have h1 := imm.isLt
  have h2 := Bool.toNat_le bk
  rw [opField_toNat, commandWord_toNat]
  omega

@[simp] theorem zeroField_commandWord (op : BitVec 8) (bk : Bool) (imm : Half) : zeroField (commandWord op bk imm) = 0 := by
  apply BitVec.eq_of_toNat_eq
  have h1 := imm.isLt
  have h2 := Bool.toNat_le bk
  have h0 : (0 : BitVec 7).toNat = 0 := rfl
  rw [zeroField_toNat, commandWord_toNat, h0]
  omega

@[simp] theorem immField_commandWord (op : BitVec 8) (bk : Bool) (imm : Half) : immField (commandWord op bk imm) = imm := by
  apply BitVec.eq_of_toNat_eq
  have h1 := imm.isLt
  rw [immField_toNat, commandWord_toNat]
  omega

@[simp] theorem bankField_commandWord (op : BitVec 8) (bk : Bool) (imm : Half) : bankField (commandWord op bk imm) = bk := by
  have h1 := imm.isLt
  have h2 := Bool.toNat_le bk
  have h : (bankField (commandWord op bk imm)).toNat = bk.toNat := by
    rw [bankField_toNat, commandWord_toNat]
    omega
  revert h
  cases bankField (commandWord op bk imm) <;> cases bk <;> simp

/-- A word whose reserved bits are 0 is the word of its fields. -/
theorem commandWord_fields (w : Word) (h : zeroField w = 0) : commandWord (opField w) (bankField w) (immField w) = w := by
  apply BitVec.eq_of_toNat_eq
  have hz : w.toNat / 2 ^ 16 % 2 ^ 7 = 0 := by rw [← zeroField_toNat, h]; rfl
  rw [commandWord_toNat, opField_toNat, bankField_toNat, immField_toNat]
  omega

/-- The words of SETSEQ, SETCMD, SETACK and SETLEN as two halves (30_encoding.md R56). -/
theorem commandWord_setseq (n : Half) : commandWord 0x01#8 false n = (0x0100#16 ++ n : Word) := rfl

theorem commandWord_setcmd (n : Half) : commandWord 0x02#8 false n = (0x0200#16 ++ n : Word) := rfl

theorem commandWord_setack (n : Half) : commandWord 0x03#8 false n = (0x0300#16 ++ n : Word) := rfl

theorem commandWord_setlen (n : Half) : commandWord 0x05#8 false n = (0x0500#16 ++ n : Word) := rfl

theorem driveWord_toNat (d u : Byte) (v : Half) :
    (driveWord d u v).toNat = d.toNat * 2 ^ 24 + u.toNat * 2 ^ 16 + v.toNat := by
  have h : (driveWord d u v).toNat = (d.toNat * 2 ^ 8 + u.toNat) * 2 ^ 16 + v.toNat := by
    unfold driveWord
    rw [append_toNat, append_toNat]
  rw [h]
  omega

theorem driveWord_direction (d u : Byte) (v : Half) : (driveWord d u v).extractLsb' 24 8 = d := by
  apply BitVec.eq_of_toNat_eq
  have h2 := u.isLt
  have h3 := v.isLt
  rw [BitVec.extractLsb'_toNat, Nat.shiftRight_eq_div_pow, driveWord_toNat]
  omega

theorem driveWord_duration (d u : Byte) (v : Half) : (driveWord d u v).extractLsb' 16 8 = u := by
  apply BitVec.eq_of_toNat_eq
  have h3 := v.isLt
  rw [BitVec.extractLsb'_toNat, Nat.shiftRight_eq_div_pow, driveWord_toNat]
  omega

theorem driveWord_speed (d u : Byte) (v : Half) : (driveWord d u v).extractLsb' 0 16 = v := by
  apply BitVec.eq_of_toNat_eq
  rw [BitVec.extractLsb'_toNat, Nat.shiftRight_eq_div_pow, driveWord_toNat]
  omega

/-- The operand word gives its three operands back. -/
@[simp] theorem decodeDrive_driveWord (d u : Byte) (v : Half) : decodeDrive (driveWord d u v) = .packdrive d u v := by
  unfold decodeDrive
  rw [driveWord_direction, driveWord_duration, driveWord_speed]

/-- Every word is the operand word of the operands read from it. -/
theorem driveWord_fields (w : Word) :
    driveWord (w.extractLsb' 24 8) (w.extractLsb' 16 8) (w.extractLsb' 0 16) = w := by
  apply BitVec.eq_of_toNat_eq
  have := w.isLt
  rw [driveWord_toNat]
  simp only [BitVec.extractLsb'_toNat, Nat.shiftRight_eq_div_pow]
  omega

@[simp] theorem BankId.ofBit_bit (b : BankId) : BankId.ofBit b.bit = b := by cases b <;> rfl

@[simp] theorem BankId.bit_ofBit (b : Bool) : (BankId.ofBit b).bit = b := by cases b <;> rfl

/-- The rows of the operation table do not overlap: two rows differ in a bit both fix (30_encoding.md R56). -/
theorem commandRows_disjoint : commandRows.Pairwise (fun r r' => r.1 &&& r.2 &&& r'.2 ≠ r'.1 &&& r.2 &&& r'.2) := by
  decide

theorem frameRows_disjoint : frameRows.Pairwise (fun r r' => r.1 &&& r.2 &&& r'.2 ≠ r'.1 &&& r.2 &&& r'.2) := by
  decide

end Sys2Proof
end

