-- ==== Sys2Proof/Laws/Flags.lean ====
section
/-!
SUPPORT. The flags byte, the command kind and the status byte, bit by bit.
-/

namespace Sys2Proof.Machine

@[simp] theorem driveBit_flagsByte (d r z a : Bool) : driveBit (flagsByte d r z a) = d := by
  cases d <;> cases r <;> cases z <;> cases a <;> rfl

@[simp] theorem respBit_flagsByte (d r z a : Bool) : respBit (flagsByte d r z a) = r := by
  cases d <;> cases r <;> cases z <;> cases a <;> rfl

@[simp] theorem sleepBit_flagsByte (d r z a : Bool) : sleepBit (flagsByte d r z a) = z := by
  cases d <;> cases r <;> cases z <;> cases a <;> rfl

@[simp] theorem ackBit_flagsByte (d r z a : Bool) : ackBit (flagsByte d r z a) = a := by
  cases d <;> cases r <;> cases z <;> cases a <;> rfl

/-- A kind is selected exactly by its own flag alone (30_encoding.md R52). -/
theorem kindOf_eq_some_iff (d r z : Bool) (k : CommandKind) :
    kindOf d r z = some k ↔
      d = decide (k = .drive) ∧ r = decide (k = .response) ∧ z = decide (k = .sleep) := by
  cases d <;> cases r <;> cases z <;> cases k <;> decide

/-- No kind exactly when not one command flag is set (44_access.md R81). -/
theorem kindOf_eq_none_iff (d r z : Bool) : kindOf d r z = none ↔ commandCount d r z ≠ 1 := by
  cases d <;> cases r <;> cases z <;> decide

@[simp] theorem statusValid_statusByte (c f : Bool) : statusValid (statusByte c f) = true := by
  cases c <;> cases f <;> rfl

@[simp] theorem statusFrameErrBit_statusByte (c f : Bool) : statusFrameErrBit (statusByte c f) = false := by
  cases c <;> cases f <;> rfl

@[simp] theorem statusCrcErr_statusByte (c f : Bool) : statusCrcErr (statusByte c f) = c := by
  cases c <;> cases f <;> rfl

@[simp] theorem statusFlagErr_statusByte (c f : Bool) : statusFlagErr (statusByte c f) = f := by
  cases c <;> cases f <;> rfl

@[simp] theorem statusValid_statusFrameErr : statusValid statusFrameErr = false := rfl

theorem statusByte_toNat (c f : Bool) : (statusByte c f).toNat = 1 + 4 * c.toNat + 8 * f.toNat := by
  cases c <;> cases f <;> rfl

end Sys2Proof.Machine
end

