-- ==== Sys2Proof/Laws/Memory.lean ====
section
/-!
SUPPORT. Body buffers: what a write, a forgetting and a read of them do, and that every one of them keeps the canonical form.
-/

namespace Sys2Proof.Machine

/-! ### One byte -/

@[simp] theorem Memory.readByte_nil (a : Nat) : Memory.readByte [] a = none := rfl

theorem Memory.readByte_cons (k : Nat) (b : Byte) (m : Memory) (a : Nat) :
    Memory.readByte ((k, b) :: m) a = if a = k then some b else Memory.readByte m a := by
  by_cases h : a = k
  · subst h; simp [Memory.readByte]
  · have hk : (a == k) = false := by simpa using h
    simp [Memory.readByte, List.lookup_cons, hk, h]

theorem Memory.readByte_append (m m' : Memory) (a : Nat) :
    Memory.readByte (m ++ m') a = (Memory.readByte m a).or (Memory.readByte m' a) := by
  induction m with
  | nil => simp
  | cons c m ih =>
    obtain ⟨k, b⟩ := c
    rw [List.cons_append, readByte_cons, readByte_cons, ih]
    split <;> simp

/-- Keeping the cells whose offset satisfies a test keeps exactly those bytes. -/
theorem Memory.readByte_filter (m : Memory) (p : Nat → Bool) (a : Nat) :
    Memory.readByte (m.filter (fun c => p c.1)) a = if p a then Memory.readByte m a else none := by
  induction m with
  | nil => simp
  | cons c m ih =>
    obtain ⟨k, b⟩ := c
    by_cases hk : p k <;> by_cases ha : a = k <;> simp_all [readByte_cons]

/-- The cells of a sequence hold its bytes and nothing else. -/
theorem Memory.readByte_cells (v : List Byte) (addr a : Nat) :
    Memory.readByte (Memory.cells addr v) a = if addr ≤ a then v[a - addr]? else none := by
  induction v generalizing addr with
  | nil => simp [cells]
  | cons b v ih =>
    rw [cells, readByte_cons, ih]
    rcases Nat.lt_trichotomy a addr with h | h | h
    · rw [if_neg (by omega), if_neg (by omega), if_neg (by omega)]
    · subst h; simp
    · rw [if_neg (by omega), if_pos (by omega), if_pos (by omega)]
      obtain ⟨k, hk⟩ : ∃ k, a - addr = k + 1 := ⟨a - addr - 1, by omega⟩
      have : a - (addr + 1) = k := by omega
      rw [hk, this, List.getElem?_cons_succ]

/-- A write puts its bytes at its offsets and leaves every other byte alone (00_scope.md R10). -/
theorem Memory.readByte_write (m : Memory) (addr : Nat) (v : List Byte) (a : Nat) :
    Memory.readByte (Memory.write m addr v) a =
      if addr ≤ a ∧ a < addr + v.length then v[a - addr]? else Memory.readByte m a := by
  unfold write
  rw [readByte_append, readByte_append, readByte_filter m (fun x => decide (x < addr)), readByte_cells,
    readByte_filter m (fun x => decide (addr + v.length ≤ x))]
  simp only [decide_eq_true_eq]
  by_cases h1 : a < addr
  · rw [if_pos h1, if_neg (by omega), if_neg (by omega), if_neg (by omega)]
    simp
  · by_cases h2 : a < addr + v.length
    · obtain ⟨b, hb⟩ : ∃ b, v[a - addr]? = some b := ⟨_, List.getElem?_eq_getElem (by omega)⟩
      rw [if_neg h1, if_pos (by omega), if_neg (by omega), if_pos (by omega), hb]
      simp
    · have hv : v[a - addr]? = none := by rw [List.getElem?_eq_none_iff]; omega
      rw [if_neg h1, if_pos (by omega), if_pos (by omega), if_neg (by omega), hv]
      simp

/-- Forgetting keeps exactly the bytes below its bound. -/
theorem Memory.readByte_forgetFrom (m : Memory) (n a : Nat) :
    Memory.readByte (Memory.forgetFrom m n) a = if a < n then Memory.readByte m a else none := by
  unfold forgetFrom
  rw [readByte_filter m (fun x => decide (x < n))]
  simp

/-! ### A body loaded whole -/

theorem Memory.mem_cells_bound (v : List Byte) (addr : Nat) (c : Host.Cell) (h : c ∈ Memory.cells addr v) :
    addr ≤ c.1 ∧ c.1 < addr + v.length := by
  induction v generalizing addr with
  | nil => simp [cells] at h
  | cons b v ih =>
    rw [cells, List.mem_cons] at h
    rcases h with rfl | h
    · simp
    · have := ih (addr + 1) h
      simp only [List.length_cons]
      omega

/-- Loading a body whole leaves exactly its bytes, whatever the buffer held (10_state.md R19, 40_construct.md R65). -/
theorem Memory.forgetFrom_write_zero (m : Memory) (v : List Byte) :
    Memory.forgetFrom (Memory.write m 0 v) v.length = Memory.cells 0 v := by
  unfold forgetFrom write
  rw [List.filter_append, List.filter_append]
  have h1 : (m.filter (fun c => decide (c.1 < 0))) = [] := by simp
  have h2 : (Memory.cells 0 v).filter (fun c => decide (c.1 < v.length)) = Memory.cells 0 v := by
    rw [List.filter_eq_self]
    intro c hc
    have := mem_cells_bound v 0 c hc
    simp; omega
  have h3 : (m.filter (fun c => decide (0 + v.length ≤ c.1))).filter (fun c => decide (c.1 < v.length)) = [] := by
    rw [List.filter_filter, List.filter_eq_nil_iff]
    intro c _
    simp
  rw [h1, h2, h3]
  simp

@[simp] theorem Memory.read_zero (m : Memory) (addr : Nat) : Memory.read m addr 0 = some [] := rfl

/-- A read answers its bytes exactly when every byte of its range has a value. -/
theorem Memory.read_eq_some_iff (m : Memory) (addr n : Nat) (bs : List Byte) :
    Memory.read m addr n = some bs ↔
      bs.length = n ∧ ∀ i, i < n → Memory.readByte m (addr + i) = bs[i]? := by
  induction n generalizing addr bs with
  | zero =>
    simp only [read_zero, Option.some.injEq, Nat.not_lt_zero, false_imp_iff, implies_true, and_true]
    exact ⟨fun h => by simp [← h], fun h => (List.length_eq_zero_iff.mp h).symm⟩
  | succ n ih =>
    unfold read
    constructor
    · intro h
      split at h
      · rename_i b bs' hb hbs
        obtain rfl : b :: bs' = bs := by simpa using h
        obtain ⟨hl, hr⟩ := (ih (addr + 1) bs').mp hbs
        refine ⟨by simp [hl], fun i hi => ?_⟩
        cases i with
        | zero => simpa using hb
        | succ i => simpa [Nat.add_assoc, Nat.add_comm 1 i] using hr i (by omega)
      · exact absurd h (by simp)
    · rintro ⟨hl, hr⟩
      match bs, hl with
      | b :: bs', hl =>
        have hb : readByte m addr = some b := by simpa using hr 0 (by omega)
        have hbs : read m (addr + 1) n = some bs' := by
          rw [ih]
          refine ⟨by simpa using hl, fun i hi => ?_⟩
          simpa [Nat.add_assoc, Nat.add_comm 1 i] using hr (i + 1) (by omega)
        rw [hb, hbs]

/-- The whole of a loaded body reads back. -/
theorem Memory.read_cells (v : List Byte) : Memory.read (Memory.cells 0 v) 0 v.length = some v := by
  rw [read_eq_some_iff]
  refine ⟨rfl, fun i _ => ?_⟩
  rw [readByte_cells]
  simp

/-- A read depends on nothing but the bytes of its range. -/
theorem Memory.read_congr (m m' : Memory) (addr n : Nat)
    (h : ∀ i, i < n → Memory.readByte m (addr + i) = Memory.readByte m' (addr + i)) :
    Memory.read m addr n = Memory.read m' addr n := by
  induction n generalizing addr with
  | zero => rfl
  | succ n ih =>
    have h0 : readByte m addr = readByte m' addr := by simpa using h 0 (by omega)
    have h1 : read m (addr + 1) n = read m' (addr + 1) n :=
      ih (addr + 1) fun i hi => by simpa [Nat.add_assoc, Nat.add_comm 1 i] using h (i + 1) (by omega)
    unfold read
    rw [h0, h1]

/-! ### The canonical form -/

theorem Memory.wf_iff (m : Memory) : Memory.wf m = true ↔ m.Pairwise (fun c d => c.1 < d.1) := by
  induction m with
  | nil => simp [wf]
  | cons c m ih =>
    cases m with
    | nil => simp [wf]
    | cons d m =>
      rw [wf, Bool.and_eq_true, decide_eq_true_eq, ih, List.pairwise_cons (a := c)]
      constructor
      · rintro ⟨hcd, hp⟩
        refine ⟨fun e he => ?_, hp⟩
        rcases List.mem_cons.mp he with rfl | he
        · exact hcd
        · exact Nat.lt_trans hcd ((List.pairwise_cons.mp hp).1 e he)
      · rintro ⟨hc, hp⟩
        exact ⟨hc d (by simp), hp⟩

theorem Memory.wf_filter (m : Memory) (p : Host.Cell → Bool) (h : Memory.wf m = true) : Memory.wf (m.filter p) = true := by
  rw [wf_iff] at *
  exact h.filter p

theorem Memory.wf_cells (v : List Byte) (addr : Nat) : Memory.wf (Memory.cells addr v) = true := by
  rw [wf_iff]
  induction v generalizing addr with
  | nil => simp [cells]
  | cons b v ih =>
    rw [cells, List.pairwise_cons]
    refine ⟨fun c hc => ?_, ih (addr + 1)⟩
    have := mem_cells_bound v (addr + 1) c hc
    simp only
    omega

/-- A write keeps the canonical form. -/
theorem Memory.wf_write (m : Memory) (addr : Nat) (v : List Byte) (h : Memory.wf m = true) :
    Memory.wf (Memory.write m addr v) = true := by
  have h1 := (wf_iff _).mp (wf_filter m (fun c => decide (c.1 < addr)) h)
  have h2 := (wf_iff _).mp (wf_cells v addr)
  have h3 := (wf_iff _).mp (wf_filter m (fun c => decide (addr + v.length ≤ c.1)) h)
  rw [wf_iff]
  unfold write
  rw [List.pairwise_append, List.pairwise_append]
  refine ⟨⟨h1, h2, fun c hc d hd => ?_⟩, h3, fun c hc d hd => ?_⟩
  · have := mem_cells_bound v addr d hd
    simp only [List.mem_filter, decide_eq_true_eq] at hc
    omega
  · simp only [List.mem_filter, decide_eq_true_eq] at hd
    rcases List.mem_append.mp hc with hc | hc
    · simp only [List.mem_filter, decide_eq_true_eq] at hc
      omega
    · have := mem_cells_bound v addr c hc
      omega

/-- Forgetting keeps the canonical form. -/
theorem Memory.wf_forgetFrom (m : Memory) (n : Nat) (h : Memory.wf m = true) :
    Memory.wf (Memory.forgetFrom m n) = true := wf_filter m _ h

/-- After reset both buffers are canonical. -/
theorem State.reset_buffers_wf : Memory.wf State.reset.tx.body = true ∧ Memory.wf State.reset.rx.body = true :=
  ⟨rfl, rfl⟩

end Sys2Proof.Machine
end

