-- ==== Sys2Proof/Laws/Operands.lean ====
section
/-!
SUPPORT. The little-endian fields, the header and the Drive body, taken apart and put together again.
-/

namespace Sys2Proof.Machine

theorem unle16_toNat (b0 b1 : Byte) : (unle16 b0 b1).toNat = b0.toNat + 256 * b1.toNat := by
  have h0 := b0.isLt
  have h1 := b1.isLt
  rw [unle16, BitVec.toNat_ofNat, Nat.mod_eq_of_lt (by omega)]

theorem low_byte_toNat (v : Half) : (v.extractLsb' 0 8).toNat = v.toNat % 256 := by
  simp [BitVec.extractLsb'_toNat]

theorem high_byte_toNat (v : Half) : (v.extractLsb' 8 8).toNat = v.toNat / 256 := by
  have h := v.isLt
  simp only [BitVec.extractLsb'_toNat, Nat.shiftRight_eq_div_pow]
  omega

/-- `unle16(le16(v)) = v` (20_memory.md R33). -/
@[simp] theorem unle16_le16 (v : Half) : unle16 (v.extractLsb' 0 8) (v.extractLsb' 8 8) = v := by
  apply BitVec.eq_of_toNat_eq
  rw [unle16_toNat, low_byte_toNat, high_byte_toNat]
  omega

/-- `le16(unle16(s)) = s`. -/
@[simp] theorem le16_unle16 (b0 b1 : Byte) : le16 (unle16 b0 b1) = [b0, b1] := by
  have h0 := b0.isLt
  have h1 := b1.isLt
  have hl : (unle16 b0 b1).extractLsb' 0 8 = b0 := by
    apply BitVec.eq_of_toNat_eq
    rw [low_byte_toNat, unle16_toNat]
    omega
  have hh : (unle16 b0 b1).extractLsb' 8 8 = b1 := by
    apply BitVec.eq_of_toNat_eq
    rw [high_byte_toNat, unle16_toNat]
    omega
  rw [le16, hl, hh]

@[simp] theorem le16_length (v : Half) : (le16 v).length = 2 := rfl

@[simp] theorem headerBytes_length (seq : Half) (flags : Byte) (len : Half) :
    (headerBytes seq flags len).length = 5 := rfl

/-- The five header bytes (30_encoding.md R43). -/
theorem headerBytes_eq (seq : Half) (flags : Byte) (len : Half) :
    headerBytes seq flags len =
      [seq.extractLsb' 0 8, seq.extractLsb' 8 8, flags, len.extractLsb' 0 8, len.extractLsb' 8 8] := rfl

@[simp] theorem frameLength_eq (n : Nat) : frameLength n = 6 + n := by
  simp only [frameLength, Config.headerSize_eq, Config.checksumSize_eq]
  omega

@[simp] theorem driveBody_length (d u : Byte) (v : Half) : (driveBody d u v).length = 4 := rfl

theorem driveBody_eq (d u : Byte) (v : Half) : driveBody d u v = [d, u, v.extractLsb' 0 8, v.extractLsb' 8 8] := rfl

/-- The Drive layout loses nothing (45_drive_body.md R89). -/
@[simp] theorem parseDrive_driveBody (d u : Byte) (v : Half) : parseDrive (driveBody d u v) = some (d, u, v) := by
  simp [driveBody_eq, parseDrive]

/-- A header can be read exactly from a sequence of at least five bytes. -/
theorem parseHeader_eq_some_iff (input : List Byte) (h : Header) :
    parseHeader input = some h ↔ ∃ b0 b1 b2 b3 b4 rest, input = b0 :: b1 :: b2 :: b3 :: b4 :: rest ∧
      h = { seq := unle16 b0 b1, flags := b2, length := unle16 b3 b4 } := by
  constructor
  · intro hp
    unfold parseHeader at hp
    split at hp
    · exact ⟨_, _, _, _, _, _, rfl, (Option.some.inj hp).symm⟩
    · cases hp
  · rintro ⟨b0, b1, b2, b3, b4, rest, rfl, rfl⟩
    rfl

end Sys2Proof.Machine
end

