-- ==== Sys2Proof/Laws/State.lean ====
section
/-!
SUPPORT. What each update of a bank and of the state leaves in each field: one lemma per field per update.
-/

namespace Sys2Proof.Machine

/-! ### Bank.withSeq -/

@[simp] theorem Bank.withSeq_seq (b : Bank) (v : Half) : (b.withSeq v).seq = v := rfl
@[simp] theorem Bank.withSeq_drive (b : Bank) (v : Half) : (b.withSeq v).drive = b.drive := rfl
@[simp] theorem Bank.withSeq_resp (b : Bank) (v : Half) : (b.withSeq v).resp = b.resp := rfl
@[simp] theorem Bank.withSeq_sleep (b : Bank) (v : Half) : (b.withSeq v).sleep = b.sleep := rfl
@[simp] theorem Bank.withSeq_ack (b : Bank) (v : Half) : (b.withSeq v).ack = b.ack := rfl
@[simp] theorem Bank.withSeq_len (b : Bank) (v : Half) : (b.withSeq v).len = b.len := rfl
@[simp] theorem Bank.withSeq_blen (b : Bank) (v : Half) : (b.withSeq v).blen = b.blen := rfl
@[simp] theorem Bank.withSeq_crc (b : Bank) (v : Half) : (b.withSeq v).crc = b.crc := rfl
@[simp] theorem Bank.withSeq_body (b : Bank) (v : Half) : (b.withSeq v).body = b.body := rfl

/-! ### Bank.withCommand -/

@[simp] theorem Bank.withCommand_seq (b : Bank) (d r z : Bool) : (b.withCommand d r z).seq = b.seq := rfl
@[simp] theorem Bank.withCommand_drive (b : Bank) (d r z : Bool) : (b.withCommand d r z).drive = d := rfl
@[simp] theorem Bank.withCommand_resp (b : Bank) (d r z : Bool) : (b.withCommand d r z).resp = r := rfl
@[simp] theorem Bank.withCommand_sleep (b : Bank) (d r z : Bool) : (b.withCommand d r z).sleep = z := rfl
@[simp] theorem Bank.withCommand_ack (b : Bank) (d r z : Bool) : (b.withCommand d r z).ack = b.ack := rfl
@[simp] theorem Bank.withCommand_len (b : Bank) (d r z : Bool) : (b.withCommand d r z).len = b.len := rfl
@[simp] theorem Bank.withCommand_blen (b : Bank) (d r z : Bool) : (b.withCommand d r z).blen = b.blen := rfl
@[simp] theorem Bank.withCommand_crc (b : Bank) (d r z : Bool) : (b.withCommand d r z).crc = b.crc := rfl
@[simp] theorem Bank.withCommand_body (b : Bank) (d r z : Bool) : (b.withCommand d r z).body = b.body := rfl

/-! ### Bank.withAck -/

@[simp] theorem Bank.withAck_seq (b : Bank) (v : Bool) : (b.withAck v).seq = b.seq := rfl
@[simp] theorem Bank.withAck_drive (b : Bank) (v : Bool) : (b.withAck v).drive = b.drive := rfl
@[simp] theorem Bank.withAck_resp (b : Bank) (v : Bool) : (b.withAck v).resp = b.resp := rfl
@[simp] theorem Bank.withAck_sleep (b : Bank) (v : Bool) : (b.withAck v).sleep = b.sleep := rfl
@[simp] theorem Bank.withAck_ack (b : Bank) (v : Bool) : (b.withAck v).ack = v := rfl
@[simp] theorem Bank.withAck_len (b : Bank) (v : Bool) : (b.withAck v).len = b.len := rfl
@[simp] theorem Bank.withAck_blen (b : Bank) (v : Bool) : (b.withAck v).blen = b.blen := rfl
@[simp] theorem Bank.withAck_crc (b : Bank) (v : Bool) : (b.withAck v).crc = b.crc := rfl
@[simp] theorem Bank.withAck_body (b : Bank) (v : Bool) : (b.withAck v).body = b.body := rfl

/-! ### Bank.withLen -/

@[simp] theorem Bank.withLen_seq (b : Bank) (v : Half) : (b.withLen v).seq = b.seq := rfl
@[simp] theorem Bank.withLen_drive (b : Bank) (v : Half) : (b.withLen v).drive = b.drive := rfl
@[simp] theorem Bank.withLen_resp (b : Bank) (v : Half) : (b.withLen v).resp = b.resp := rfl
@[simp] theorem Bank.withLen_sleep (b : Bank) (v : Half) : (b.withLen v).sleep = b.sleep := rfl
@[simp] theorem Bank.withLen_ack (b : Bank) (v : Half) : (b.withLen v).ack = b.ack := rfl
@[simp] theorem Bank.withLen_len (b : Bank) (v : Half) : (b.withLen v).len = v := rfl
@[simp] theorem Bank.withLen_blen (b : Bank) (v : Half) : (b.withLen v).blen = b.blen := rfl
@[simp] theorem Bank.withLen_crc (b : Bank) (v : Half) : (b.withLen v).crc = b.crc := rfl
@[simp] theorem Bank.withLen_body (b : Bank) (v : Half) : (b.withLen v).body = b.body := rfl

/-! ### Bank.withCrc -/

@[simp] theorem Bank.withCrc_seq (b : Bank) (v : Byte) : (b.withCrc v).seq = b.seq := rfl
@[simp] theorem Bank.withCrc_drive (b : Bank) (v : Byte) : (b.withCrc v).drive = b.drive := rfl
@[simp] theorem Bank.withCrc_resp (b : Bank) (v : Byte) : (b.withCrc v).resp = b.resp := rfl
@[simp] theorem Bank.withCrc_sleep (b : Bank) (v : Byte) : (b.withCrc v).sleep = b.sleep := rfl
@[simp] theorem Bank.withCrc_ack (b : Bank) (v : Byte) : (b.withCrc v).ack = b.ack := rfl
@[simp] theorem Bank.withCrc_len (b : Bank) (v : Byte) : (b.withCrc v).len = b.len := rfl
@[simp] theorem Bank.withCrc_blen (b : Bank) (v : Byte) : (b.withCrc v).blen = b.blen := rfl
@[simp] theorem Bank.withCrc_crc (b : Bank) (v : Byte) : (b.withCrc v).crc = v := rfl
@[simp] theorem Bank.withCrc_body (b : Bank) (v : Byte) : (b.withCrc v).body = b.body := rfl

/-! ### Bank.withBody -/

@[simp] theorem Bank.withBody_seq (b : Bank) (v : List Byte) : (b.withBody v).seq = b.seq := rfl
@[simp] theorem Bank.withBody_drive (b : Bank) (v : List Byte) : (b.withBody v).drive = b.drive := rfl
@[simp] theorem Bank.withBody_resp (b : Bank) (v : List Byte) : (b.withBody v).resp = b.resp := rfl
@[simp] theorem Bank.withBody_sleep (b : Bank) (v : List Byte) : (b.withBody v).sleep = b.sleep := rfl
@[simp] theorem Bank.withBody_ack (b : Bank) (v : List Byte) : (b.withBody v).ack = b.ack := rfl
@[simp] theorem Bank.withBody_len (b : Bank) (v : List Byte) : (b.withBody v).len = b.len := rfl
@[simp] theorem Bank.withBody_blen (b : Bank) (v : List Byte) : (b.withBody v).blen = BitVec.ofNat 16 v.length := rfl
@[simp] theorem Bank.withBody_crc (b : Bank) (v : List Byte) : (b.withBody v).crc = b.crc := rfl
@[simp] theorem Bank.withBody_body (b : Bank) (v : List Byte) : (b.withBody v).body = Memory.forgetFrom (Memory.write b.body 0 v) v.length := rfl

/-! ### Bank.loadBody -/

@[simp] theorem Bank.loadBody_seq (b : Bank) (v : List Byte) : (b.loadBody v).seq = b.seq := rfl
@[simp] theorem Bank.loadBody_drive (b : Bank) (v : List Byte) : (b.loadBody v).drive = b.drive := rfl
@[simp] theorem Bank.loadBody_resp (b : Bank) (v : List Byte) : (b.loadBody v).resp = b.resp := rfl
@[simp] theorem Bank.loadBody_sleep (b : Bank) (v : List Byte) : (b.loadBody v).sleep = b.sleep := rfl
@[simp] theorem Bank.loadBody_ack (b : Bank) (v : List Byte) : (b.loadBody v).ack = b.ack := rfl
@[simp] theorem Bank.loadBody_len (b : Bank) (v : List Byte) : (b.loadBody v).len = BitVec.ofNat 16 (frameLength v.length) := rfl
@[simp] theorem Bank.loadBody_blen (b : Bank) (v : List Byte) : (b.loadBody v).blen = BitVec.ofNat 16 v.length := rfl
@[simp] theorem Bank.loadBody_crc (b : Bank) (v : List Byte) : (b.loadBody v).crc = b.crc := rfl
@[simp] theorem Bank.loadBody_body (b : Bank) (v : List Byte) : (b.loadBody v).body = Memory.forgetFrom (Memory.write b.body 0 v) v.length := rfl

/-! ### Bank.empty -/

@[simp] theorem Bank.empty_seq : Bank.empty.seq = 0 := rfl
@[simp] theorem Bank.empty_drive : Bank.empty.drive = false := rfl
@[simp] theorem Bank.empty_resp : Bank.empty.resp = false := rfl
@[simp] theorem Bank.empty_sleep : Bank.empty.sleep = false := rfl
@[simp] theorem Bank.empty_ack : Bank.empty.ack = false := rfl
@[simp] theorem Bank.empty_len : Bank.empty.len = 6 := rfl
@[simp] theorem Bank.empty_blen : Bank.empty.blen = 0 := rfl
@[simp] theorem Bank.empty_crc : Bank.empty.crc = 0 := rfl
@[simp] theorem Bank.empty_body : Bank.empty.body = [] := rfl

/-! ### State.withTx -/

@[simp] theorem State.withTx_tx (s : State) (v : Bank) : (s.withTx v).tx = v := rfl
@[simp] theorem State.withTx_rx (s : State) (v : Bank) : (s.withTx v).rx = s.rx := rfl
@[simp] theorem State.withTx_status (s : State) (v : Bank) : (s.withTx v).status = s.status := rfl
@[simp] theorem State.withTx_requests (s : State) (v : Bank) : (s.withTx v).requests = s.requests := rfl
@[simp] theorem State.withTx_responses (s : State) (v : Bank) : (s.withTx v).responses = s.responses := rfl

/-! ### State.withRx -/

@[simp] theorem State.withRx_tx (s : State) (v : Bank) : (s.withRx v).tx = s.tx := rfl
@[simp] theorem State.withRx_rx (s : State) (v : Bank) : (s.withRx v).rx = v := rfl
@[simp] theorem State.withRx_status (s : State) (v : Bank) : (s.withRx v).status = s.status := rfl
@[simp] theorem State.withRx_requests (s : State) (v : Bank) : (s.withRx v).requests = s.requests := rfl
@[simp] theorem State.withRx_responses (s : State) (v : Bank) : (s.withRx v).responses = s.responses := rfl

/-! ### State.withStatus -/

@[simp] theorem State.withStatus_tx (s : State) (v : Byte) : (s.withStatus v).tx = s.tx := rfl
@[simp] theorem State.withStatus_rx (s : State) (v : Byte) : (s.withStatus v).rx = s.rx := rfl
@[simp] theorem State.withStatus_status (s : State) (v : Byte) : (s.withStatus v).status = v := rfl
@[simp] theorem State.withStatus_requests (s : State) (v : Byte) : (s.withStatus v).requests = s.requests := rfl
@[simp] theorem State.withStatus_responses (s : State) (v : Byte) : (s.withStatus v).responses = s.responses := rfl
@[simp] theorem State.withStatus_bank (s : State) (v : Byte) (b : BankId) : (s.withStatus v).bank b = s.bank b := by
  cases b <;> rfl

/-! ### State.withRequests -/

@[simp] theorem State.withRequests_tx (s : State) (v : List Request) : (s.withRequests v).tx = s.tx := rfl
@[simp] theorem State.withRequests_rx (s : State) (v : List Request) : (s.withRequests v).rx = s.rx := rfl
@[simp] theorem State.withRequests_status (s : State) (v : List Request) : (s.withRequests v).status = s.status := rfl
@[simp] theorem State.withRequests_requests (s : State) (v : List Request) : (s.withRequests v).requests = v := rfl
@[simp] theorem State.withRequests_responses (s : State) (v : List Request) : (s.withRequests v).responses = s.responses := rfl
@[simp] theorem State.withRequests_bank (s : State) (v : List Request) (b : BankId) : (s.withRequests v).bank b = s.bank b := by
  cases b <;> rfl

/-! ### State.respond -/

@[simp] theorem State.respond_tx (s : State) (v : Response) : (s.respond v).tx = s.tx := rfl
@[simp] theorem State.respond_rx (s : State) (v : Response) : (s.respond v).rx = s.rx := rfl
@[simp] theorem State.respond_status (s : State) (v : Response) : (s.respond v).status = s.status := rfl
@[simp] theorem State.respond_requests (s : State) (v : Response) : (s.respond v).requests = s.requests := rfl
@[simp] theorem State.respond_responses (s : State) (v : Response) : (s.respond v).responses = s.responses ++ [v] := rfl
@[simp] theorem State.respond_bank (s : State) (v : Response) (b : BankId) : (s.respond v).bank b = s.bank b := by
  cases b <;> rfl

/-! ### State.bank, State.newBank -/

@[simp] theorem State.bank_tx (s : State) : s.bank .tx = s.tx := rfl
@[simp] theorem State.bank_rx (s : State) : s.bank .rx = s.rx := rfl
@[simp] theorem State.newBank_tx_tx (s : State) : (s.newBank .tx).tx = Bank.empty := rfl
@[simp] theorem State.newBank_tx_rx (s : State) : (s.newBank .tx).rx = s.rx := rfl
@[simp] theorem State.newBank_tx_status (s : State) : (s.newBank .tx).status = s.status := rfl
@[simp] theorem State.newBank_tx_requests (s : State) : (s.newBank .tx).requests = s.requests := rfl
@[simp] theorem State.newBank_tx_responses (s : State) : (s.newBank .tx).responses = s.responses := rfl
@[simp] theorem State.newBank_rx_tx (s : State) : (s.newBank .rx).tx = s.tx := rfl
@[simp] theorem State.newBank_rx_rx (s : State) : (s.newBank .rx).rx = Bank.empty := rfl
@[simp] theorem State.newBank_rx_status (s : State) : (s.newBank .rx).status = 0 := rfl
@[simp] theorem State.newBank_rx_requests (s : State) : (s.newBank .rx).requests = s.requests := rfl
@[simp] theorem State.newBank_rx_responses (s : State) : (s.newBank .rx).responses = s.responses := rfl

end Sys2Proof.Machine
end

