-- ==== Sys2Proof/Laws/Operations.lean ====
section
/-!
SUPPORT. For each shared operation, once, everything it can do: what a proof cites instead of unfolding it.
-/

namespace Sys2Proof.Machine

open Sys2Proof.Safety

/-! ### The ends of an operation -/

theorem answer_next (d : Data) (s s' : State) :
    answer d s = .next s' ↔ s' = { s with responses := s.responses ++ [⟨.ok, d⟩] } := by
  simp [answer, State.respond, eq_comm]

theorem raise_next (e : Code) (s s' : State) :
    raise e s = .next s' ↔ s' = { s with responses := s.responses ++ [⟨e, .nothing⟩] } := by
  simp [raise, State.respond, eq_comm]

/-- A question for a kind always completes: with the kind or with `MalformedCommandFlags`. -/
theorem answerKind_next (k : Option CommandKind) (s s' : State) :
    answerKind k s = .next s' ↔
      (∃ k', k = some k' ∧ s' = { s with responses := s.responses ++ [⟨.ok, .kind k'⟩] }) ∨
      (k = none ∧ s' = { s with responses := s.responses ++ [⟨.malformedCommandFlags, .nothing⟩] }) := by
  cases k <;> simp [answerKind, answer_next, raise_next]

/-! ### Bodies -/

/-- A loaded body occupies exactly its cells. -/
theorem Bank.withBody_cells (b : Bank) (v : List Byte) : (b.withBody v).body = Memory.cells 0 v := by
  rw [Bank.withBody_body, Memory.forgetFrom_write_zero]

theorem Bank.loadBody_cells (b : Bank) (v : List Byte) : (b.loadBody v).body = Memory.cells 0 v := by
  rw [Bank.loadBody_body, Memory.forgetFrom_write_zero]

/-- What `bodyBytes` answers is the body of the bank. -/
theorem Bank.bodyBytes_eq_some_iff (b : Bank) (body : List Byte) : b.bodyBytes = some body ↔ HoldsBody b body := by
  unfold Bank.bodyBytes HoldsBody
  rw [Memory.read_eq_some_iff]
  constructor
  · rintro ⟨hl, h⟩
    exact ⟨hl, fun i hi => by simpa using h i (by omega)⟩
  · rintro ⟨hl, h⟩
    exact ⟨hl, fun i hi => by simpa using h i (by omega)⟩

/-- A bank holds one body. -/
theorem holdsBody_unique {b : Bank} {v w : List Byte} (h : HoldsBody b v) (h' : HoldsBody b w) : v = w := by
  have hb := (Bank.bodyBytes_eq_some_iff b w).mpr h'
  rw [(Bank.bodyBytes_eq_some_iff b v).mpr h] at hb
  exact Option.some.inj hb

/-- A body loaded whole is held, if its length fits `BLEN`. -/
theorem holdsBody_withBody (b : Bank) (v : List Byte) (h : v.length < 65536) : HoldsBody (b.withBody v) v := by
  refine ⟨?_, fun i hi => ?_⟩
  · simp only [Bank.withBody_blen, BitVec.toNat_ofNat]
    omega
  · rw [Bank.withBody_cells, Memory.readByte_cells]
    simp

theorem holdsBody_loadBody (b : Bank) (v : List Byte) (h : v.length < 65536) : HoldsBody (b.loadBody v) v :=
  holdsBody_withBody b v h

/-- Loading a body leaves nothing of the old one. -/
theorem Bank.loadBody_eq (b : Bank) (v : List Byte) :
    b.loadBody v = { b with
      blen := BitVec.ofNat 16 v.length, len := BitVec.ofNat 16 (frameLength v.length), body := Memory.cells 0 v } := by
  have h := b.loadBody_cells v
  show (⟨_, _, _, _, _, _, _, _, (b.loadBody v).body⟩ : Bank) = _
  rw [h]
  rfl

/-- A bank in order holds a body. -/
theorem BankOk.holdsBody {cap : Nat} (b : Bank) (h : BankOk cap b) : ∃ body, HoldsBody b body := by
  obtain ⟨hk, -⟩ := h
  refine ⟨b.body.map Prod.snd, ?_, fun i hi => ?_⟩
  · have := congrArg List.length hk
    simpa using this
  · have gen : ∀ (m : Memory) (a n : Nat), m.map Prod.fst = List.range' a n → ∀ i, i < m.length →
        Memory.readByte m (a + i) = (m.map Prod.snd)[i]? := by
      intro m
      induction m with
      | nil => intro a n _ i hi; simp at hi
      | cons c m ih =>
        intro a n hm i hi
        obtain ⟨k, x⟩ := c
        cases n with
        | zero => simp at hm
        | succ n =>
          rw [List.range'_succ, List.map_cons, List.cons.injEq] at hm
          obtain ⟨rfl, hm⟩ := hm
          rw [Memory.readByte_cons]
          cases i with
          | zero => simp
          | succ i =>
            have := ih _ n hm i (by simpa using hi)
            rw [if_neg (by simp), ← Nat.add_assoc, Nat.add_right_comm, this]
            simp
    have := gen b.body 0 b.blen.toNat (by rw [hk, List.range_eq_range']) i (by simpa using hi)
    simpa using this

/-! ### SETBODY, ENCODE, DECODE -/

/-- SETBODY either loads the body or refuses it (40_construct.md R65). -/
theorem setbodyWith_next (cap : Nat) (input : List Byte) (s s' : State) :
    setbodyWith cap input s = .next s' ↔
      input.length ≤ cap ∧
        s' = { s with tx := s.tx.loadBody input, responses := s.responses ++ [⟨.ok, .nothing⟩] } := by
  unfold setbodyWith
  split
  · simp; omega
  · rw [answer_next]
    have : input.length ≤ cap := by omega
    simp [this, State.withTx]

/-- ENCODE either reports the length or emits the frame (41_encode.md R67). -/
theorem execEncode_next (s s' : State) :
    execEncode s = .next s' ↔
      (s.tx.len.toNat ≠ 6 + s.tx.blen.toNat ∧
        s' = { s with responses := s.responses ++ [⟨.invalidHeaderLength, .nothing⟩] }) ∨
      (s.tx.len.toNat = 6 + s.tx.blen.toNat ∧ ∃ body, HoldsBody s.tx body ∧
        s' = { s with
          tx := s.tx.withCrc (cksum (s.tx.header ++ body)),
          responses := s.responses ++ [⟨.ok, .bytes (s.tx.header ++ body ++ [cksum (s.tx.header ++ body)])⟩] }) := by
  unfold execEncode
  rw [frameLength_eq]
  by_cases hl : s.tx.len.toNat = 6 + s.tx.blen.toNat
  · rw [if_neg (not_not.mpr hl)]
    cases hb : s.tx.bodyBytes with
    | none =>
      simp only [reduceCtorEq, false_iff, not_or, not_and, not_exists, hl, ne_eq, not_true_eq_false, false_imp_iff,
        true_and]
      intro body hh
      rw [(Bank.bodyBytes_eq_some_iff _ _).mpr hh] at hb
      cases hb
    | some body =>
      have hh := (Bank.bodyBytes_eq_some_iff _ _).mp hb
      simp only [answer_next, hl, ne_eq, not_true_eq_false, false_and, false_or, true_and, State.withTx]
      constructor
      · intro h
        exact ⟨body, hh, h⟩
      · rintro ⟨body', hh', h⟩
        obtain rfl : body = body' := by
          rw [(Bank.bodyBytes_eq_some_iff _ _).mpr hh', Option.some.injEq] at hb
          exact hb.symm
        exact h
  · rw [if_pos hl, raise_next]
    simp [hl]

/-- The structural checks pass exactly on a header, a body that `length` counts and the buffer holds, and a checksum byte
(42_decode.md R70, R71). -/
theorem parseFrame_eq_some_iff (cap : Nat) (input : List Byte) (f : Frame) :
    parseFrame cap input = some f ↔
      ∃ b0 b1 fl l0 l1 body c, input = [b0, b1, fl, l0, l1] ++ body ++ [c] ∧
        l0.toNat + 256 * l1.toNat = 6 + body.length ∧ body.length ≤ cap ∧
        f = { header := { seq := unle16 b0 b1, flags := fl, length := unle16 l0 l1 }, body := body, crc := c } := by
  have pass : ∀ (b0 b1 fl l0 l1 : Byte) (body : List Byte) (c : Byte),
      l0.toNat + 256 * l1.toNat = 6 + body.length → body.length ≤ cap →
      parseFrame cap ([b0, b1, fl, l0, l1] ++ body ++ [c]) =
        some { header := { seq := unle16 b0 b1, flags := fl, length := unle16 l0 l1 }, body := body, crc := c } := by
    intro b0 b1 fl l0 l1 body c hlen hcap
    have hn : ([b0, b1, fl, l0, l1] ++ body ++ [c]).length = 6 + body.length := by simp; omega
    have hlast : ([b0, b1, fl, l0, l1] ++ body ++ [c]).getLast? = some c := List.getLast?_concat
    have hdrop : (([b0, b1, fl, l0, l1] ++ body ++ [c]).drop 5).take (6 + body.length - 6) = body := by simp
    unfold parseFrame
    simp only [Config.minFrame_eq, Config.bodyOff_eq, Config.frameCapOf_eq, hn, hlast]
    have h1 : ¬ 6 + body.length < 6 := by omega
    have h4 : ¬ cap + 6 < 6 + body.length := by omega
    simp only [h1, if_false, List.cons_append, List.nil_append, parseHeader, unle16_toNat, hlen, ne_eq, not_true_eq_false,
      h4] at hdrop ⊢
    rw [hdrop]
  constructor
  · intro h
    unfold parseFrame at h
    simp only [Config.minFrame_eq, Config.bodyOff_eq, Config.frameCapOf_eq] at h
    by_cases h6 : input.length < 6
    · rw [if_pos h6] at h; cases h
    rw [if_neg h6] at h
    cases hhd : parseHeader input with
    | none => rw [hhd] at h; cases h
    | some hd =>
      cases hc : input.getLast? with
      | none => rw [hhd, hc] at h; cases h
      | some c =>
        simp only [hhd, hc] at h
        obtain ⟨b0, b1, fl, l0, l1, rest, hin, rfl⟩ := (parseHeader_eq_some_iff _ _).mp hhd
        rw [hin] at h6 hc
        have hlast : rest.getLast? = some c := by
          cases rest with
          | nil => simp at h6
          | cons x xs => simpa [List.getLast?_cons_cons] using hc
        obtain ⟨body, rfl⟩ : ∃ body, rest = body ++ [c] := ⟨rest.dropLast, (List.dropLast_append_getLast? c hlast).symm⟩
        have hin' : input = [b0, b1, fl, l0, l1] ++ body ++ [c] := by simp [hin]
        have hn : input.length = 6 + body.length := by rw [hin']; simp; omega
        rw [unle16_toNat, hn] at h
        have hl : l0.toNat + 256 * l1.toNat = 6 + body.length := by
          by_contra hne
          rw [if_pos hne] at h
          split at h <;> cases h
        have hcap : body.length ≤ cap := by
          by_contra hne
          rw [if_neg (by omega), if_neg (not_not.mpr hl), if_pos (by omega)] at h
          cases h
        refine ⟨b0, b1, fl, l0, l1, body, c, hin', hl, hcap, ?_⟩
        rw [if_neg (by omega), if_neg (not_not.mpr hl), if_neg (by omega), Option.some.injEq] at h
        rw [← h, hin']
        simp [hl]
  · rintro ⟨b0, b1, fl, l0, l1, body, c, rfl, hlen, hcap, rfl⟩
    exact pass b0 b1 fl l0 l1 body c hlen hcap

/-- DECODE always completes: with the packet of the frame, or with the empty packet (42_decode.md R70, R72, R73 a). -/
theorem decodeWith_next (cap : Nat) (input : List Byte) (s s' : State) :
    decodeWith cap input s = .next s' ↔
      (parseFrame cap input = none ∧
        s' = { s with
          rx := Bank.empty, status := statusFrameErr,
          responses := s.responses ++ [⟨.truncatedOrOversizedFrame, .nothing⟩] }) ∨
      (∃ f, parseFrame cap input = some f ∧
        s' = { s with
          rx := s.rx.commit f, status := statusByte (frameCrcErr input f) (frameFlagErr f),
          responses := s.responses ++ [⟨decodeCode (frameCrcErr input f) (frameFlagErr f),
            .record (recordOf (s.rx.commit f) f.body (statusByte (frameCrcErr input f) (frameFlagErr f)))⟩] }) := by
  unfold decodeWith
  cases hp : parseFrame cap input with
  | none => simp [failFrame, raise_next, State.newBank, State.withRx, State.withStatus]
  | some f => simp [State.withRx, State.withStatus, State.respond, eq_comm]

/-! ### Capacity (00_scope.md R8) -/

/-- The machine is the instance of the default capacity. -/
theorem exec_eq_execOn (i : Instr) (s : State) : exec i s = execOn Config.bodyCap i s := by cases i <;> rfl

theorem step_eq_stepOn (s : State) : step s = stepOn Config.bodyCap s := by
  unfold step stepOn
  rw [funext fun i => funext fun s => exec_eq_execOn i s]

/-- A body that fits one capacity is loaded alike on every greater one. -/
theorem setbodyWith_mono {cap cap' : Nat} (h : cap ≤ cap') {input : List Byte} (hi : input.length ≤ cap) (s : State) :
    setbodyWith cap input s = setbodyWith cap' input s := by
  unfold setbodyWith
  rw [if_neg (by omega), if_neg (by omega)]

/-- A byte sequence within the frame capacity of one instance is decoded alike on every greater one. -/
theorem decodeWith_mono {cap cap' : Nat} (h : cap ≤ cap') {input : List Byte} (hi : input.length ≤ Config.frameCapOf cap)
    (s : State) : decodeWith cap input s = decodeWith cap' input s := by
  rw [Config.frameCapOf_eq] at hi
  have hp : parseFrame cap input = parseFrame cap' input := by
    unfold parseFrame
    simp only [Config.frameCapOf_eq, show ¬ cap + 6 < input.length by omega, show ¬ cap' + 6 < input.length by omega]
  unfold decodeWith
  rw [hp]

/-- A byte sequence beyond the frame capacity is a structural failure (42_decode.md R70, check 4). -/
theorem parseFrame_of_frameCap_lt {cap : Nat} {input : List Byte} (h : Config.frameCapOf cap < input.length) :
    parseFrame cap input = none := by
  cases hp : parseFrame cap input with
  | none => rfl
  | some f =>
    obtain ⟨b0, b1, fl, l0, l1, body, c, rfl, -, hcap, -⟩ := (parseFrame_eq_some_iff _ _ _).mp hp
    simp at h
    omega

/-! ### A committed frame, field by field (42_decode.md R70) -/

@[simp] theorem Bank.commit_seq (b : Bank) (f : Frame) : (b.commit f).seq = f.header.seq := rfl
@[simp] theorem Bank.commit_drive (b : Bank) (f : Frame) : (b.commit f).drive = driveBit f.header.flags := rfl
@[simp] theorem Bank.commit_resp (b : Bank) (f : Frame) : (b.commit f).resp = respBit f.header.flags := rfl
@[simp] theorem Bank.commit_sleep (b : Bank) (f : Frame) : (b.commit f).sleep = sleepBit f.header.flags := rfl
@[simp] theorem Bank.commit_ack (b : Bank) (f : Frame) : (b.commit f).ack = ackBit f.header.flags := rfl
@[simp] theorem Bank.commit_len (b : Bank) (f : Frame) : (b.commit f).len = f.header.length := rfl
@[simp] theorem Bank.commit_blen (b : Bank) (f : Frame) : (b.commit f).blen = BitVec.ofNat 16 f.body.length := rfl
@[simp] theorem Bank.commit_crc (b : Bank) (f : Frame) : (b.commit f).crc = f.crc := rfl

/-- A commit leaves nothing of the old bank (42_decode.md R73 b). -/
theorem Bank.commit_body (b : Bank) (f : Frame) : (b.commit f).body = Memory.cells 0 f.body :=
  Bank.withBody_cells _ f.body

/-- A committed frame does not depend on the bank it replaces (42_decode.md R73 b). -/
theorem Bank.commit_eq (b b' : Bank) (f : Frame) : b.commit f = b'.commit f := by
  have h := b.commit_body f
  have h' := b'.commit_body f
  show (⟨_, _, _, _, _, _, _, _, (b.commit f).body⟩ : Bank) = ⟨_, _, _, _, _, _, _, _, (b'.commit f).body⟩
  rw [h, h']
  rfl

/-! ### The queue of requests -/

/-- An outcome with another queue. -/
def withQueue (q : List Request) (o : Result) : Result :=
  match o with
  | .next s => .next { s with requests := q }
  | .fault f => .fault f
  | .refused r => .refused r

theorem answerKind_queue (k : Option CommandKind) (s : State) (q : List Request) :
    answerKind k { s with requests := q } = withQueue q (answerKind k s) := by
  cases k <;> rfl

/-- No operation looks at the queue or changes it (10_state.md R24; log entry 2). -/
theorem exec_queue (i : Instr) (s : State) (q : List Request) :
    exec i { s with requests := q } = withQueue q (exec i s) := by
  cases i with
  | new b => cases b <;> rfl
  | setcmd k => cases k <;> rfl
  | setbody input => simp only [exec, execSetbody, setbodyWith]; split <;> rfl
  | encode =>
    simp only [exec, execEncode]
    split
    · rfl
    · split <;> rfl
  | decode input => simp only [exec, execDecode, decodeWith]; split <;> rfl
  | getcmd b => cases b <;> exact answerKind_queue _ s q
  | getbody b => cases b <;> (simp only [exec, execGetbody, State.bank]; split <;> rfl)
  | unpackdrive b =>
    simp only [exec, execUnpackdrive]
    rw [show ({ s with requests := q } : State).bank b = s.bank b from by cases b <;> rfl]
    split
    · rfl
    · split <;> rfl
  | frameDrive a r => exact answerKind_queue _ s q
  | frameResponse a r => exact answerKind_queue _ s q
  | frameSleep a r => exact answerKind_queue _ s q
  | getseq b => cases b <;> rfl
  | getack b => cases b <;> rfl
  | getlen b => cases b <;> rfl
  | getcrc b => cases b <;> rfl
  | setseq _ => rfl
  | setack _ => rfl
  | setlen _ => rfl
  | packdrive _ _ _ => rfl
  | cksum _ => rfl
  | verify _ => rfl
  | getstatus => rfl

/-! ### The step -/

/-- A run of one step more. -/
theorem run_succ (n : Nat) (s : State) :
    Sys2Proof.core.run (n + 1) s =
      (match step s with
      | .next s' => Sys2Proof.core.run n s'
      | .fault f => .fault f
      | .refused r => .refused r : Result) := by
  cases h : step s with
  | next t => simp only [Host.Core.run, show Sys2Proof.core.step s = .next t from h]
  | fault t => simp only [Host.Core.run, show Sys2Proof.core.step s = .fault t from h]; rfl
  | refused t => simp only [Host.Core.run, show Sys2Proof.core.step s = .refused t from h]; rfl

/-- A step does nothing, runs the decoded instruction, or answers for what is no instruction; on any instance. -/
theorem stepWith_cases (run : Instr → State → Result) (s : State) :
    (s.requests = [] ∧ stepWith run s = .next s) ∨
    (∃ r rest i, s.requests = r :: rest ∧ decode r = .ok i ∧ stepWith run s = run i { s with requests := rest }) ∨
    (∃ r rest e, s.requests = r :: rest ∧ decode r = .error e ∧
      stepWith run s = undecoded e { s with requests := rest }) := by
  unfold stepWith
  cases hq : s.requests with
  | nil => exact .inl ⟨rfl, rfl⟩
  | cons r rest =>
    cases hd : decode r with
    | ok i => exact .inr (.inl ⟨r, rest, i, rfl, hd, by simp only [hd]; rfl⟩)
    | error e => exact .inr (.inr ⟨r, rest, e, rfl, hd, by simp only [hd]; rfl⟩)

theorem step_cases (s : State) :
    (s.requests = [] ∧ step s = .next s) ∨
    (∃ r rest i, s.requests = r :: rest ∧ decode r = .ok i ∧ step s = exec i { s with requests := rest }) ∨
    (∃ r rest e, s.requests = r :: rest ∧ decode r = .error e ∧
      step s = undecoded e { s with requests := rest }) :=
  stepWith_cases exec s

/-- The one thing that is no instruction and goes on: a malformed flags byte, answered with its error. -/
theorem undecoded_next (e : DecodeError) (s s' : State) :
    undecoded e s = .next s' ↔
      e = .malformedFlags ∧ s' = { s with responses := s.responses ++ [⟨.malformedCommandFlags, .nothing⟩] } := by
  cases e <;> simp [undecoded, raise_next]

end Sys2Proof.Machine
end

