-- ==== Sys2Proof/Laws/PerInstr.lean ====
section
/-!
SUPPORT. Per instruction: its encoding stands in its own row of the opcode table (30_encoding.md R56 for the `CMD` rows, R52
for the `FRAME_FLAGS` rows).
-/

namespace Sys2Proof.Laws.EncodedInItsRow

/-- The row's place in `commandRows`, or in `frameRows` behind them: the order of opcode_table.json. -/
def row : Instr → Nat
  | .new _ => 0
  | .setseq _ => 1
  | .setcmd _ => 2
  | .setack _ => 3
  | .setbody _ => 4
  | .setlen _ => 5
  | .packdrive _ _ _ => 6
  | .encode => 7
  | .decode _ => 8
  | .cksum _ => 9
  | .verify _ => 10
  | .getseq _ => 11
  | .getcmd _ => 12
  | .getack _ => 13
  | .getbody _ => 14
  | .getlen _ => 15
  | .getcrc _ => 16
  | .getstatus => 17
  | .unpackdrive _ => 18
  | .frameDrive _ _ => 0
  | .frameResponse _ _ => 1
  | .frameSleep _ _ => 2

/-- The request agrees with row `n` of its table wherever the row's mask has a 1. -/
def InRow (n : Nat) : Request → Prop
  | .command w _ _ => (commandRows[n]?).map Prod.fst = (commandRows[n]?).map (fun r => w &&& r.2)
  | .flagsByte b => (frameRows[n]?).map Prod.fst = (frameRows[n]?).map (fun r => b &&& r.2)

/-- The instruction's encoding stands in the instruction's own row. -/
def Statement (i : Instr) : Prop := InRow (row i) (Sys2Proof.encode i)

/-- A word with a free immediate keeps the bits above it. -/
theorem commandWord_and (op : BitVec 8) (bk : Bool) (imm : Half) :
    commandWord op bk imm &&& 0xFFFF0000#32 = commandWord op bk 0 := by
  apply BitVec.eq_of_getLsbD_eq
  intro i hi
  have hm : (0xFFFF0000#32).getLsbD i = decide (16 ≤ i) := by
    revert i
    decide
  rw [BitVec.getLsbD_and, hm]
  simp only [commandWord, BitVec.getLsbD_append]
  by_cases h : i < 16
  · simp [h]
  · have h' : 16 ≤ i := by omega
    simp only [h, if_false, h', decide_true, Bool.and_true]

/-! ### One lemma per constructor -/

theorem new (bank : BankId) : Statement (.new bank) := by cases bank <;> rfl

theorem setseq (n : Half) : Statement (.setseq n) :=
  congrArg some (commandWord_and 0x01#8 false n).symm

theorem setcmd (kind : CommandKind) : Statement (.setcmd kind) := by cases kind <;> rfl

theorem setack (v : Bool) : Statement (.setack v) := by cases v <;> rfl

theorem setbody (input : List Byte) : Statement (.setbody input) := rfl

theorem setlen (n : Half) : Statement (.setlen n) :=
  congrArg some (commandWord_and 0x05#8 false n).symm

theorem packdrive (direction duration : Byte) (speed : Half) :
    Statement (.packdrive direction duration speed) := rfl

theorem encode : Statement .encode := rfl

theorem decode (input : List Byte) : Statement (.decode input) := rfl

theorem cksum (input : List Byte) : Statement (.cksum input) := rfl

theorem verify (input : List Byte) : Statement (.verify input) := rfl

theorem getseq (bank : BankId) : Statement (.getseq bank) := by cases bank <;> rfl

theorem getcmd (bank : BankId) : Statement (.getcmd bank) := by cases bank <;> rfl

theorem getack (bank : BankId) : Statement (.getack bank) := by cases bank <;> rfl

theorem getbody (bank : BankId) : Statement (.getbody bank) := by cases bank <;> rfl

theorem getlen (bank : BankId) : Statement (.getlen bank) := by cases bank <;> rfl

theorem getcrc (bank : BankId) : Statement (.getcrc bank) := by cases bank <;> rfl

theorem getstatus : Statement .getstatus := rfl

theorem unpackdrive (bank : BankId) : Statement (.unpackdrive bank) := by
  cases bank <;> rfl

theorem frameDrive (ack : Bool) (reserved : BitVec 4) :
    Statement (.frameDrive ack reserved) := by
  have h : ∀ a r, InRow 0 (.flagsByte (frameFlags .drive a r)) := by simp only [InRow]; decide
  exact h ack reserved

theorem frameResponse (ack : Bool) (reserved : BitVec 4) :
    Statement (.frameResponse ack reserved) := by
  have h : ∀ a r, InRow 1 (.flagsByte (frameFlags .response a r)) := by simp only [InRow]; decide
  exact h ack reserved

theorem frameSleep (ack : Bool) (reserved : BitVec 4) :
    Statement (.frameSleep ack reserved) := by
  have h : ∀ a r, InRow 2 (.flagsByte (frameFlags .sleep a r)) := by simp only [InRow]; decide
  exact h ack reserved

end Sys2Proof.Laws.EncodedInItsRow
end

