-- ==== Sys2Proof/WellFormed.lean ====
section
/-!
DEFINITION. Which instructions the spec gives a meaning in every state or some state, as far as the instruction alone tells
(60_exceptions.md R101). The types already rule out a fourth kind and a third ack value, as R101 says of a typed host.
-/

namespace Sys2Proof

/-- Well-formed on an instance with body capacity `cap`: the body of a SETBODY fits the buffer (40_construct.md R65). Every
other instruction term is well-formed; DECODE, CKSUM and VERIFY take sequences of any length (R70, R76, R77). -/
def Instr.wellFormedFor (cap : Nat) : Instr → Bool
  | .setbody input => decide (input.length ≤ cap)
  | .new _ => true
  | .setseq _ => true
  | .setcmd _ => true
  | .setack _ => true
  | .setlen _ => true
  | .packdrive _ _ _ => true
  | .encode => true
  | .decode _ => true
  | .cksum _ => true
  | .verify _ => true
  | .getseq _ => true
  | .getcmd _ => true
  | .getack _ => true
  | .getbody _ => true
  | .getlen _ => true
  | .getcrc _ => true
  | .getstatus => true
  | .unpackdrive _ => true
  | .frameDrive _ _ => true
  | .frameResponse _ _ => true
  | .frameSleep _ _ => true

/-- Well-formed on the default instance. -/
def Instr.wellFormed (i : Instr) : Bool := i.wellFormedFor Config.bodyCap

end Sys2Proof
end

