-- ==== Sys2Proof/Tests/Slice0.lean ====
section
/-!
SUPPORT. Tests of one step on small states, with expected values from spec/ (mostly 95_test_vectors.md), and for each
statement with hypotheses a state and operands that meet them.
-/

namespace Sys2Proof.Tests

open Sys2Proof.Machine Sys2Proof.Safety

/-! ### Helpers -/

/-- The Drive packet `(1; 1 0 0 0; 10; 4; 01 03 5A 00; 0B)` of vector S6. -/
def drivePacket : Bank :=
  { seq := 1, drive := true, resp := false, sleep := false, ack := false, len := 10, blen := 4, crc := 0x0B,
    body := [(0, 0x01), (1, 0x03), (2, 0x5A), (3, 0x00)] }

/-- The frame of that packet (vector S6). -/
def driveFrame : List Byte := [0x01, 0x00, 0x01, 0x0A, 0x00, 0x01, 0x03, 0x5A, 0x00, 0x0B]

/-- The smallest frame: Sleep, sequence 1 (vector S4). -/
def sleepFrame : List Byte := [0x01, 0x00, 0x04, 0x06, 0x00, 0x04]

/-- Reset, but for one bank, and with `STATUS = 01` when it is `RX`. -/
def withBank (id : BankId) (b : Bank) : State :=
  match id with
  | .tx => State.reset.withTx b
  | .rx => (State.reset.withRx b).withStatus 0x01

/-- The response of an operation. -/
def response (o : Result) : Option Response := (nextState o).bind (fun s => s.responses.getLast?)

/-- What an operation leaves in a bank. -/
def after (id : BankId) (o : Result) : Option Bank := (nextState o).map (fun s => s.bank id)

/-- The status an operation leaves. -/
def statusAfter (o : Result) : Option Byte := (nextState o).map State.status

/-- A next state with a property, from a check. -/
theorem next_of (o : Result) (p : State → Bool) (h : (nextState o).any p = true) : ∃ t, o = .next t ∧ p t = true := by
  cases o with
  | next t => exact ⟨t, rfl, h⟩
  | fault f => cases h
  | refused r => cases h

/-! ### WellFormed (its one check: 40_construct.md R65) -/

theorem test_body_over_capacity_is_ill_formed : (Instr.setbody (List.replicate 17 0)).wellFormedFor 16 = false := by decide

theorem test_body_at_capacity_is_well_formed : (Instr.setbody (List.replicate 16 0)).wellFormedFor 16 = true := by decide

theorem test_long_decode_input_is_well_formed : (Instr.decode (List.replicate 40 0)).wellFormedFor 16 = true := by decide

/-! ### Decoding: every row's word, bit by bit (30_encoding.md R55, R56: op, bk, zero, imm) -/

theorem test_decode_construct :
    decodeTableWord 32 0b00000000_1_0000000_0000000000000000 = some (.new .rx) ∧
    decodeTableWord 32 0b00000001_0_0000000_0001001000110100 = some (.setseq 0x1234) ∧
    decodeTableWord 32 0b00000010_0_0000000_0000000000000000 = some (.setcmd .drive) ∧
    decodeTableWord 32 0b00000010_0_0000000_0000000000000001 = some (.setcmd .sleep) ∧
    decodeTableWord 32 0b00000010_0_0000000_0000000000000010 = some (.setcmd .response) ∧
    decodeTableWord 32 0b00000011_0_0000000_0000000000000001 = some (.setack true) ∧
    decodeTableWord 32 0b00000100_0_0000000_0000000000000000 = some (.setbody []) ∧
    decodeTableWord 32 0b00000101_0_0000000_0000000000000111 = some (.setlen 7) := by decide

theorem test_decode_codec :
    decodeTableWord 32 0b00001000_0_0000000_0000000000000000 = some .encode ∧
    decodeTableWord 32 0b00001001_1_0000000_0000000000000000 = some (.decode []) ∧
    decodeTableWord 32 0b00001010_0_0000000_0000000000000000 = some (.cksum []) ∧
    decodeTableWord 32 0b00001011_0_0000000_0000000000000000 = some (.verify []) := by decide

theorem test_decode_access :
    decodeTableWord 32 0b00010000_0_0000000_0000000000000000 = some (.getseq .tx) ∧
    decodeTableWord 32 0b00010001_1_0000000_0000000000000000 = some (.getcmd .rx) ∧
    decodeTableWord 32 0b00010010_0_0000000_0000000000000000 = some (.getack .tx) ∧
    decodeTableWord 32 0b00010011_1_0000000_0000000000000000 = some (.getbody .rx) ∧
    decodeTableWord 32 0b00010100_0_0000000_0000000000000000 = some (.getlen .tx) ∧
    decodeTableWord 32 0b00010101_1_0000000_0000000000000000 = some (.getcrc .rx) ∧
    decodeTableWord 32 0b00010110_1_0000000_0000000000000000 = some .getstatus := by decide

/-- The operand word `0x0103005A` of program P1, line 4, and the row's word with an operand word of zeros. -/
theorem test_decode_drive_body :
    decode (.command 0x06000000 0x0103005A []) = .ok (.packdrive 1 3 90) ∧
    decodeTableWord 32 0b00000110_0_0000000_0000000000000000 = some (.packdrive 0 0 0) ∧
    decodeTableWord 32 0b00010111_1_0000000_0000000000000000 = some (.unpackdrive .rx) := by decide

/-- R52: reserved bits 7:4, ack bit 3, command flags 2:0. -/
theorem test_decode_frame_flags :
    decodeTableWord 8 0b0000_1_001 = some (.frameDrive true 0b0000) ∧
    decodeTableWord 8 0b1010_0_010 = some (.frameResponse false 0b1010) ∧
    decodeTableWord 8 0b0001_1_100 = some (.frameSleep true 0b0001) ∧
    decodeTableWord 8 0b0000_1_000 = none ∧ decodeTableWord 8 0b0000_0_011 = none := by decide

/-- Vectors V-NEW, last four rows, and one word with a reserved bit set: each is refused by the step, by name. -/
theorem test_decode_refusals :
    decode (.command 0x02000003 0 []) = .error .kindCodeOutOfRange ∧
    decode (.command 0x03000002 0 []) = .error .ackOutOfRange ∧
    decode (.command 0x07000000 0 []) = .error .unassignedOp ∧
    decode (.command 0x01800001 0 []) = .error .bankNotAccepted ∧
    decode (.command 0x00000001 0 []) = .error .immediateNotZero ∧
    decode (.command 0x10010000 0 []) = .error .reservedBitsSet := by decide

/-! ### Construction (V-NEW) -/

theorem test_new : after .tx (exec (.new .tx) (withBank .tx drivePacket)) =
    some Bank.empty := by decide

theorem test_new_rx_clears_status : statusAfter (exec (.new .rx) (withBank .rx drivePacket)) = some 0x00 := by decide

theorem test_setseq : after .tx (exec (.setseq 65535) State.reset) =
    some { Bank.empty with seq := 65535 } := by decide

theorem test_setcmd : after .tx (exec (.setcmd .sleep) (withBank .tx { drivePacket with ack := true })) =
    some { drivePacket with drive := false, sleep := true, ack := true } := by decide

theorem test_setack : after .tx (exec (.setack true) (withBank .tx drivePacket)) =
    some { drivePacket with ack := true } := by decide

theorem test_setbody : after .tx (exec (.setbody [0x09]) (withBank .tx drivePacket)) =
    some { drivePacket with len := 7, blen := 1, body := [(0, 0x09)] } := by decide

theorem test_setbody_refuses : isRefused (execOn 16 (.setbody (List.replicate 17 0)) State.reset) = true := by decide

theorem test_setlen : after .tx (exec (.setlen 7) (withBank .tx drivePacket)) =
    some { drivePacket with len := 7 } := by decide

theorem test_packdrive : after .tx (exec (.packdrive 1 1 0x0100) State.reset) =
    some { Bank.empty with len := 10, blen := 4, body := [(0, 0x01), (1, 0x01), (2, 0x00), (3, 0x01)] } := by decide

/-! ### The codec (V-ENC, V-DEC, V-CK) -/

theorem test_encode : response (exec .encode (withBank .tx { drivePacket with crc := 0 })) =
    some ⟨.ok, .bytes driveFrame⟩ := by decide

theorem test_encode_reports_length : response (exec .encode (withBank .tx { drivePacket with len := 9 })) =
    some ⟨.invalidHeaderLength, .nothing⟩ := by decide

/-- The last row of V-DEC before the capacity row's: reserved bits are summed and dropped, the mismatch delivers the fields. -/
theorem test_decode : after .rx (exec (.decode [0x01, 0x00, 0xA1, 0x0A, 0x00, 0x01, 0x03, 0x5A, 0x00, 0x0B]) State.reset) =
      some drivePacket ∧
    statusAfter (exec (.decode [0x01, 0x00, 0xA1, 0x0A, 0x00, 0x01, 0x03, 0x5A, 0x00, 0x0B]) State.reset) = some 0x05 := by
  decide

/-- V-DEC: a 46-byte frame on an instance with `BODY_CAP = 16`, and on the default one, which holds its 40 bytes. -/
theorem test_decode_over_capacity :
    response (execOn 16 (.decode ([0x07, 0x00, 0x02, 0x2E, 0x00] ++ List.replicate 40 0xFF ++ [0x48])) State.reset) =
      some ⟨.truncatedOrOversizedFrame, .nothing⟩ ∧
    statusAfter (exec (.decode ([0x07, 0x00, 0x02, 0x2E, 0x00] ++ List.replicate 40 0xFF ++ [0x48])) State.reset) =
      some 0x01 := by decide

theorem test_cksum : response (exec (.cksum (List.replicate 33 0xFF)) State.reset) = some ⟨.ok, .u8 0x08⟩ := by decide

theorem test_verify : response (exec (.verify sleepFrame) State.reset) = some ⟨.ok, .bit true⟩ := by decide

theorem test_verify_of_one_byte : response (exec (.verify [0x00]) State.reset) = some ⟨.ok, .bit false⟩ := by decide

/-! ### Accessors (V-ACC) and UNPACKDRIVE (V-DRV) -/

theorem test_getseq : response (exec (.getseq .rx) (withBank .rx { drivePacket with seq := 0x1234 })) =
    some ⟨.ok, .u16 0x1234⟩ := by decide

theorem test_getcmd : response (exec (.getcmd .tx) (withBank .tx drivePacket)) = some ⟨.ok, .kind .drive⟩ := by decide

theorem test_getcmd_malformed : response (exec (.getcmd .rx) (withBank .rx { drivePacket with sleep := true })) =
    some ⟨.malformedCommandFlags, .nothing⟩ := by decide

theorem test_getack : response (exec (.getack .rx) (withBank .rx { drivePacket with ack := true })) =
    some ⟨.ok, .bit true⟩ := by decide

theorem test_getbody : response (exec (.getbody .rx) (withBank .rx drivePacket)) =
    some ⟨.ok, .bytes [0x01, 0x03, 0x5A, 0x00]⟩ := by decide

theorem test_getlen : response (exec (.getlen .tx) (withBank .tx { drivePacket with len := 7 })) =
    some ⟨.ok, .u16 7⟩ := by decide

theorem test_getcrc : response (exec (.getcrc .rx) (withBank .rx drivePacket)) = some ⟨.ok, .u8 0x0B⟩ := by decide

theorem test_getstatus : response (exec .getstatus (State.reset.withStatus 0x0D)) = some ⟨.ok, .u8 0x0D⟩ := by decide

theorem test_unpackdrive :
    response (exec (.unpackdrive .rx)
      (withBank .rx { drivePacket with body := [(0, 0xDE), (1, 0xAD), (2, 0xBE), (3, 0xEF)] })) =
      some ⟨.ok, .drive 0xDE 0xAD 0xEFBE⟩ := by decide

theorem test_unpackdrive_refuses : isRefused (exec (.unpackdrive .tx) State.reset) = true := by decide

/-! ### Command kinds on the wire (R52) -/

theorem test_frame_drive : response (exec (.frameDrive true 0b1111) State.reset) = some ⟨.ok, .kind .drive⟩ := by decide

theorem test_frame_response : response (exec (.frameResponse false 0) State.reset) = some ⟨.ok, .kind .response⟩ := by
  decide

theorem test_frame_sleep : response (exec (.frameSleep true 0) State.reset) = some ⟨.ok, .kind .sleep⟩ := by decide

/-! ### The step -/

/-- The word placed by `withFetchWord` is what the next step runs, as the first instruction after reset. -/
theorem test_fetched_word_runs : response (step (State.reset.withFetchWord 32 0x08000000)) =
    some ⟨.ok, .bytes [0x00, 0x00, 0x00, 0x06, 0x00, 0x02]⟩ := by decide

/-- Program P4, line 4, as the first operation after reset. -/
theorem test_step_loads_a_body_of_32_bytes :
    (after .tx (step (State.reset.issue [.setbody (List.replicate 32 0xFF)]))).map (fun b => (b.blen, b.len)) =
      some (32, 38) := by decide

/-- Program P4, line 5: 38 bytes, and a checksum that has wrapped. -/
theorem test_encode_wraps :
    response (exec .encode (withBank .tx { Bank.empty with
      resp := true, len := 38, blen := 32, body := Memory.cells 0 (List.replicate 32 0xFF) })) =
      some ⟨.ok, .bytes ([0x00, 0x00, 0x02, 0x26, 0x00] ++ List.replicate 32 0xFF ++ [0x04])⟩ := by decide

/-- R8's table: the defaults. -/
theorem test_default_capacities : Config.bodyCap = 65529 ∧ Config.frameCap = 65535 := by decide

theorem test_fetched_flags_byte_runs : response (step (State.reset.withFetchWord 8 0x04)) = some ⟨.ok, .kind .sleep⟩ := by
  decide

theorem test_step_refuses_unassigned_op : isRefused (step (State.reset.withFetchWord 32 0x07000000)) = true := by decide

/-! ### Witnesses: encodings and the step -/

theorem witness_EncodeOfDecodeIsTheWord :
    (∃ i, decode (.command 0x06000000 0x0103005A [0xAA]) = .ok i) ∧ (∃ i, decode (.flagsByte 0xFC) = .ok i) :=
  ⟨⟨.packdrive 1 3 90, by decide⟩, ⟨.frameSleep true 0b1111, by decide⟩⟩

/-- Words at the ends of their rows' ranges, and just beyond them. -/
theorem witness_CommandWordsOfTheOperationTable :
    MatchesOperationTable 0x0500FFFF ∧ MatchesOperationTable 0x02000002 ∧ MatchesOperationTable 0x03000001 ∧
    MatchesOperationTable 0x17800000 ∧ ¬ MatchesOperationTable 0x02000003 ∧ ¬ MatchesOperationTable 0x03000002 ∧
    ¬ MatchesOperationTable 0x18000000 ∧ ¬ MatchesOperationTable 0x00010000 ∧
    (State.reset.withRequests [.command 0x02000003 0 []]).requests = .command 0x02000003 0 [] :: [] := by
  unfold MatchesOperationTable RowAllows
  refine ⟨by decide, by decide, by decide, by decide, by decide, by decide, by decide, by decide, rfl⟩

theorem witness_StepRunsTheDecodedInstruction :
    (State.reset.issue [.setseq 5, .encode]).requests = encode (.setseq 5) :: [encode .encode] ∧
    decode (encode (.setseq 5)) = .ok (.setseq 5) := by decide

theorem witness_StepWithoutRequestChangesNothing : State.reset.requests = [] := rfl

/-! ### Witnesses: construction -/

theorem witness_SetcmdSetsExactlyOneCommandFlag :
    3 ≤ (3 : Half).toNat ∧ 3 ≤ (0xFFFF : Half).toNat ∧
    (State.reset.withRequests [.command (0x0200#16 ++ (3 : Half)) 0 []]).requests =
      .command (0x0200#16 ++ (3 : Half)) 0 [] :: [] := by decide

theorem witness_SetackWritesOnlyTheAck :
    2 ≤ (2 : Half).toNat ∧ 2 ≤ (0xFFFF : Half).toNat ∧
    (State.reset.withRequests [.command (0x0300#16 ++ (2 : Half)) 0 []]).requests =
      .command (0x0300#16 ++ (2 : Half)) 0 [] :: [] := by decide

/-- A body of exactly `BODY_CAP` bytes and one of one byte more, on the smallest instance and on the default one. -/
theorem witness_SetbodyLoadsTheBodyAndLength :
    Config.LegalBodyCap 4 ∧ Config.LegalBodyCap Config.bodyCap ∧
    (∀ cap, (List.replicate cap (0 : Byte)).length ≤ cap ∧ cap < (List.replicate (cap + 1) (0 : Byte)).length) := by
  refine ⟨by decide, by decide, fun cap => ?_⟩
  simp

/-- `LEN = 7` and `LEN = 5` break the invariant of the empty packet. -/
theorem witness_SetlenWritesOnlyTheLength :
    (7 : Half).toNat ≠ 6 + State.reset.tx.blen.toNat ∧ (5 : Half).toNat ≠ 6 + State.reset.tx.blen.toNat ∧
    ∃ input : List Byte, input.length ≤ Config.bodyCap ∧ Instr.setbody [0xAA] = .setbody input := by
  refine ⟨by decide, by decide, [0xAA], by decide, rfl⟩

theorem witness_SettersOfDifferentFieldsCommute :
    isSetter (.setack true) = true ∧ isSetter (.packdrive 1 3 90) = true ∧ isSetter (.setbody [0xAA]) = true ∧
    (∀ p, ¬ (writes (.setack true) p = true ∧ writes (.packdrive 1 3 90) p = true)) ∧
    (∃ t, execAll [.setbody [0xAA], .packdrive 1 3 90] State.reset = .next t ∧ true = true) ∧
    (∃ u, exec (.packdrive 1 3 90) State.reset = .next u) ∧ writes (.packdrive 1 3 90) (.bank .tx .len) = true := by
  refine ⟨rfl, rfl, rfl, ?_, next_of _ (fun _ => true) (by decide), ⟨_, rfl⟩, rfl⟩
  rintro p ⟨h, h'⟩
  obtain rfl : p = .bank .tx .ack := by simpa [writes] using h
  revert h'
  decide

/-! ### Witnesses: ENCODE -/

theorem drivePacket_holds : HoldsBody drivePacket [0x01, 0x03, 0x5A, 0x00] := by
  unfold HoldsBody
  decide

theorem witness_EncodeSerializesTheBank :
    (HoldsBody (withBank .tx drivePacket).tx [0x01, 0x03, 0x5A, 0x00] ∧
      (withBank .tx drivePacket).tx.len.toNat = 6 + (withBank .tx drivePacket).tx.blen.toNat) ∧
    (HoldsBody State.reset.tx [] ∧ State.reset.tx.len.toNat = 6 + State.reset.tx.blen.toNat) ∧
    (withBank .tx { drivePacket with len := 9 }).tx.len.toNat ≠
      6 + (withBank .tx { drivePacket with len := 9 }).tx.blen.toNat := by
  refine ⟨⟨drivePacket_holds, by decide⟩, ⟨by unfold HoldsBody; decide, by decide⟩, by decide⟩

/-- ENCODE emits a frame: the hypotheses of the statements about emitted frames, `out.length ≤ FRAME_CAP`
among them, on the smallest instance (with equality) and on the default one. -/
theorem witness_EmittedFrames :
    ∃ t, exec .encode (withBank .tx drivePacket) = .next t ∧
      t.responses = (withBank .tx drivePacket).responses ++ [⟨.ok, .bytes driveFrame⟩] ∧
      Config.LegalBodyCap 4 ∧ driveFrame.length ≤ Config.frameCapOf 4 ∧
      Config.LegalBodyCap Config.bodyCap ∧ driveFrame.length ≤ Config.frameCapOf Config.bodyCap := by
  obtain ⟨t, h, ht⟩ := next_of (exec .encode (withBank .tx drivePacket))
    (fun t => decide (t.responses = [⟨.ok, .bytes driveFrame⟩])) (by decide)
  exact ⟨t, h, (of_decide_eq_true ht).trans rfl, by decide⟩

theorem witness_EncodeIsRepeatable : ∃ t, exec .encode State.reset = .next t ∧ true = true :=
  next_of _ (fun _ => true) (by decide)

/-! ### Witnesses: DECODE -/

/-- On the smallest instance an empty body and the Drive body, which fills it; and on any instance a body that fills it. -/
theorem witness_DecodeDeliversTheFrame :
    Config.LegalBodyCap 4 ∧
    ((6 : Byte).toNat + 256 * (0 : Byte).toNat = 6 + ([] : List Byte).length ∧ ([] : List Byte).length ≤ 4) ∧
    ((10 : Byte).toNat + 256 * (0 : Byte).toNat = 6 + ([0x01, 0x03, 0x5A, 0x00] : List Byte).length ∧
      ([0x01, 0x03, 0x5A, 0x00] : List Byte).length ≤ 4) ∧
    ∀ cap, Config.LegalBodyCap cap → ∃ l0 l1 : Byte,
      l0.toNat + 256 * l1.toNat = 6 + (List.replicate cap (0 : Byte)).length ∧
      (List.replicate cap (0 : Byte)).length ≤ cap := by
  refine ⟨by decide, ⟨by decide, by decide⟩, ⟨by decide, by decide⟩, fun cap hcap =>
    ⟨BitVec.ofNat 8 (6 + cap), BitVec.ofNat 8 ((6 + cap) / 256), ?_, by simp⟩⟩
  have h := (Config.legalBodyCap_iff cap).mp hcap
  simp only [BitVec.toNat_ofNat, List.length_replicate]
  omega

/-- Each cause of a structural failure (V-DEC): too short, too long by one, `length` 5, `length` too small for the bytes; and a
DECODE that answers the code. -/
theorem witness_DecodeStructuralFailure :
    (∀ cap, StructurallyBad cap [0x01, 0x00, 0x04, 0x06, 0x00] ∧
      StructurallyBad cap (List.replicate (Config.frameCapOf cap + 1) 0) ∧
      StructurallyBad cap [0x01, 0x00, 0x04, 0x05, 0x00, 0x04] ∧
      StructurallyBad cap [0x01, 0x00, 0x04, 0x06, 0x00, 0x04, 0x00]) ∧
    Config.LegalBodyCap 4 ∧ Config.LegalBodyCap Config.bodyCap ∧
    ∃ t, exec (.decode [0x01, 0x00, 0x04, 0x06, 0x00]) State.reset = .next t ∧
      decide (lastCode t = some .truncatedOrOversizedFrame) = true :=
  ⟨fun _ => ⟨.inl (by decide), .inr (.inl (by simp)), .inr (.inr ⟨5, 0, rfl, rfl, .inl (by decide)⟩),
    .inr (.inr ⟨6, 0, rfl, rfl, .inr (by decide)⟩)⟩, by decide, by decide, next_of _ _ (by decide)⟩

/-- A frame that decoded `OK`, with the high nibble of its flags byte 0 and with it not 0 (V-DEC). -/
theorem witness_EncodeOfDecodedFrameGivesItBack :
    (∃ t, exec (.decode driveFrame) State.reset = .next t ∧ decide (lastCode t = some .ok) = true) ∧
    driveFrame[2]? = some 0x01 ∧
    (∃ t, exec (.decode [0x01, 0x00, 0xA1, 0x0A, 0x00, 0x01, 0x03, 0x5A, 0x00, 0x0D]) State.reset = .next t ∧
      decide (lastCode t = some .ok) = true) ∧
    ∀ t : State, ∃ u : State, u.tx = { t.rx with crc := 0 } :=
  ⟨next_of _ _ (by decide), rfl, next_of _ _ (by decide), fun t => ⟨t.withTx { t.rx with crc := 0 }, rfl⟩⟩

/-- Byte positions in the length field, just beside it and at the two ends, bits 0 and 7. -/
theorem witness_SingleBitFlipIsReported :
    (∃ t, exec (.decode sleepFrame) State.reset = .next t ∧ decide (lastCode t = some .ok) = true) ∧
    0 < sleepFrame.length ∧ 2 < sleepFrame.length ∧ 3 < sleepFrame.length ∧ 4 < sleepFrame.length ∧
    5 < sleepFrame.length ∧ 0 < 8 ∧ 7 < 8 :=
  ⟨next_of _ _ (by decide), by decide⟩

/-- The two flips of the row of V-DEC that is "not detected": byte 5, bits 1 and 0. -/
theorem witness_OppositeFlipsPassTheChecksum :
    (∃ t, exec (.decode driveFrame) State.reset = .next t ∧ decide (lastCode t = some .ok) = true) ∧
    5 + 1 < driveFrame.length ∧ bitAt driveFrame 5 1 = false ∧ bitAt driveFrame 5 0 = true ∧
    0 + 1 < driveFrame.length ∧ bitAt driveFrame 0 7 = false ∧ 8 + 1 < driveFrame.length :=
  ⟨next_of _ _ (by decide), by decide⟩

/-- A DECODE that stored a frame: with its command flags in order, and with two of them set (V-DEC). -/
theorem witness_DecodeStoredAFrame :
    (∃ t, exec (.decode driveFrame) State.reset = .next t ∧
      (statusValid t.status && !statusFlagErr t.status) = true) ∧
    (∃ t, exec (.decode [0x01, 0x00, 0x05, 0x0A, 0x00, 0x01, 0x03, 0x5A, 0x00, 0x0C]) State.reset = .next t ∧
      (statusValid t.status && statusFlagErr t.status) = true) :=
  ⟨next_of _ _ (by decide), next_of _ _ (by decide)⟩

/-! ### Witnesses: checksum, accessors, Drive body, flags byte -/

theorem witness_ChecksumIsThePopcountSum : [0x01, 0x02, 0x04].Perm ([0x04, 0x01, 0x02] : List Byte) := by decide

theorem witness_VerifyTestsTheTrailingByte :
    ([] : List Byte).length ≤ 1 ∧ ([0x00] : List Byte).length ≤ 1 ∧ ([0x00] : List Byte) ≠ [] := by decide

theorem witness_GetbodyAnswersTheBody :
    HoldsBody ((withBank .rx drivePacket).bank .rx) [0x01, 0x03, 0x5A, 0x00] ∧ HoldsBody (State.reset.bank .tx) [] :=
  ⟨drivePacket_holds, by unfold HoldsBody; decide⟩

/-- A 4-byte body, and bodies of 0, 3 and 5 bytes. -/
theorem witness_UnpackdriveAnswersTheTriple :
    HoldsBody ((withBank .rx drivePacket).bank .rx) [0x01, 0x03, 0x5A, 0x00] ∧
    (State.reset.bank .tx).blen.toNat ≠ 4 ∧
    ((withBank .tx { drivePacket with blen := 3 }).bank .tx).blen.toNat ≠ 4 ∧
    ((withBank .tx { drivePacket with blen := 5 }).bank .tx).blen.toNat ≠ 4 :=
  ⟨drivePacket_holds, by decide, by decide, by decide⟩

theorem witness_PseudoOperationsBuildTheirPackets :
    (List.replicate Config.bodyCap (0 : Byte)).length ≤ Config.bodyCap ∧ ([] : List Byte).length ≤ Config.bodyCap := by
  simp

theorem witness_FlagsByteSelectsTheKind :
    (State.reset.withRequests [.flagsByte 0xF9]).requests = .flagsByte 0xF9 :: [] ∧
    (State.reset.withRequests [.flagsByte 0x00]).requests = .flagsByte 0x00 :: [] := ⟨rfl, rfl⟩

/-! ### Witnesses: the whole machine -/

theorem witness_WhoKeepsTheLengthInvariant :
    (∃ t, exec (.new .rx) State.reset = .next t) ∧
    (∃ t, exec (.setbody [0xAA]) State.reset = .next t ∧ true = true) ∧
    (∃ t, exec (.packdrive 0 0 0) State.reset = .next t) ∧
    (∃ t, exec (.decode driveFrame) State.reset = .next t ∧ statusValid t.status = true) :=
  ⟨⟨_, rfl⟩, next_of _ (fun _ => true) (by decide), ⟨_, rfl⟩, next_of _ (fun t => statusValid t.status) (by decide)⟩

/-- The state after a good DECODE and with a Drive packet in `TX` satisfies the invariant. -/
theorem witness_Inv : Inv ((withBank .rx drivePacket).withTx drivePacket) where
  txOk := ⟨by decide, by decide⟩
  rxOk := ⟨by decide, by decide⟩
  txFlags := by decide
  rxLen := by decide
  statusLegal := by decide
  invalidEmpty := by decide
  flagErrAgrees := by decide

/-- The same with a request issued satisfies the invariant and its step goes on. -/
theorem witness_EveryStepKeepsTheInvariant :
    Inv (((withBank .rx drivePacket).withTx drivePacket).issue [.decode sleepFrame]) ∧
    ∃ t, step (((withBank .rx drivePacket).withTx drivePacket).issue [.decode sleepFrame]) = .next t ∧ true = true :=
  ⟨⟨witness_Inv.txOk, witness_Inv.rxOk, witness_Inv.txFlags, witness_Inv.rxLen, witness_Inv.statusLegal,
    witness_Inv.invalidEmpty, witness_Inv.flagErrAgrees⟩, next_of _ (fun _ => true) (by decide)⟩

/-- The same on the smallest instance, whose buffers the Drive bodies fill. -/
theorem witness_EveryStepOfAnInstanceKeepsItsInvariant :
    Config.LegalBodyCap 4 ∧ InvOn 4 (((withBank .rx drivePacket).withTx drivePacket).issue [.decode sleepFrame]) ∧
    ∃ t, stepOn 4 (((withBank .rx drivePacket).withTx drivePacket).issue [.decode sleepFrame]) = .next t ∧ true = true :=
  ⟨by decide, ⟨⟨by decide, by decide⟩, ⟨by decide, by decide⟩, witness_Inv.txFlags, witness_Inv.rxLen,
    witness_Inv.statusLegal, witness_Inv.invalidEmpty, witness_Inv.flagErrAgrees⟩, next_of _ (fun _ => true) (by decide)⟩

/-- On the smallest instance: a body and a frame one byte too long, and a body and a frame that just fit. -/
theorem witness_CapacityMattersOnlyBeyondIt :
    Config.LegalBodyCap 4 ∧ 4 < (List.replicate 5 (0 : Byte)).length ∧ 6 + 4 < (List.replicate 11 (0 : Byte)).length ∧
    (∀ input, Instr.setbody [1, 3, 90, 0] = .setbody input → input.length ≤ 4) ∧
    (∀ input, Instr.decode driveFrame = .decode input → input.length ≤ 6 + 4) := by
  refine ⟨by decide, by decide, by decide, ?_, ?_⟩
  · rintro _ ⟨⟩
    decide
  · rintro _ ⟨⟩
    decide

theorem witness_EveryStepKeepsTheBuffersCanonical :
    Memory.wf (withBank .tx drivePacket).tx.body = true ∧ Memory.wf (withBank .tx drivePacket).rx.body = true ∧
    ∃ t, step ((withBank .tx drivePacket).issue [.packdrive 1 3 90]) = .next t ∧ true = true :=
  ⟨by decide, by decide, next_of _ (fun _ => true) (by decide)⟩

theorem witness_OperationsWriteOnlyTheirRow :
    (∃ t, exec (.new .tx) (withBank .tx drivePacket) = .next t) ∧ writes (.new .tx) .status = false ∧
    writes (.new .tx) (.bank .tx .body) = false ∧ writes (.new .tx) (.bank .rx .seq) = false :=
  ⟨⟨_, rfl⟩, rfl, rfl, rfl⟩

/-- Two states that agree on `TX` but for its checksum, and on nothing else: what ENCODE reads. -/
theorem witness_OperationsReadOnlyTheirRow :
    (∀ p, reads .encode p = true →
      samePart p (withBank .tx drivePacket) ((withBank .rx drivePacket).withTx { drivePacket with crc := 0 })) ∧
    ∃ s', exec .encode (withBank .tx drivePacket) = .next s' ∧ true = true := by
  refine ⟨?_, next_of _ (fun _ => true) (by decide)⟩
  intro p h
  cases p with
  | status => cases h
  | bank b f =>
    cases b with
    | rx => cases f <;> cases h
    | tx =>
      cases f with
      | crc => cases h
      | seq => rfl
      | command => exact ⟨rfl, rfl, rfl⟩
      | ack => rfl
      | len => rfl
      | blen => rfl
      | body => exact fun i _ _ => rfl

theorem witness_EncAndDecAreIndependent :
    ofEnc .encode = true ∧ ofDec (.decode sleepFrame) = true ∧
    ∃ t, execAll [.encode, .decode sleepFrame] (withBank .tx drivePacket) = .next t ∧ true = true :=
  ⟨rfl, rfl, next_of _ (fun _ => true) (by decide)⟩

end Sys2Proof.Tests
end

section
/-!
PROOFS. The capacity parameter (00_scope.md R8): the machine is the default instance, and what another capacity changes.
-/

namespace Sys2Proof.Scope

open Sys2Proof.Machine

/-- Settles O50. -/
theorem theMachineIsTheDefaultInstance : Obligations.TheMachineIsTheDefaultInstance :=
  ⟨Config.bodyCap_eq, by rw [Config.frameCap_eq, Config.bodyCap_eq], Config.bodyCap_legal, exec_eq_execOn, step_eq_stepOn⟩

/-- A body beyond the capacity is refused (40_construct.md R65). -/
theorem setbodyWith_of_cap_lt {cap : Nat} {input : List Byte} (h : cap < input.length) (s : State) :
    setbodyWith cap input s = .refused .bodyTooLong := if_pos h

/-- A byte sequence beyond the frame capacity leaves the empty packet and FRAME_ERR alone (42_decode.md R70, R72). -/
theorem decodeWith_of_frameCap_lt {cap : Nat} {input : List Byte} (h : Config.frameCapOf cap < input.length) (s : State) :
    decodeWith cap input s = .next { s with
      rx := Bank.empty, status := statusFrameErr,
      responses := s.responses ++ [⟨.truncatedOrOversizedFrame, .nothing⟩] } :=
  (decodeWith_next cap input s _).mpr (.inl ⟨parseFrame_of_frameCap_lt h, rfl⟩)

/-- An instruction whose byte sequence fits the smaller of two instances has one meaning on both. Only SETBODY and DECODE look
at the capacity (92_eei_decisions.md D7). -/
theorem execOn_mono {cap cap' : Nat} (hcap : cap ≤ cap') (i : Instr) (s : State)
    (hbody : ∀ input, i = .setbody input → input.length ≤ cap)
    (hframe : ∀ input, i = .decode input → input.length ≤ Config.frameCapOf cap) :
    execOn cap i s = execOn cap' i s := by
  cases i with
  | setbody input => exact setbodyWith_mono hcap (hbody input rfl) s
  | decode input => exact decodeWith_mono hcap (hframe input rfl) s
  | _ => rfl

/-- Settles O51. The default capacity is the greatest legal one, so every instance is compared with it by `execOn_mono`. -/
theorem capacityMattersOnlyBeyondIt : Obligations.CapacityMattersOnlyBeyondIt := by
  intro cap i s hlegal
  have hframeCap : Config.frameCapOf cap = 6 + cap := by rw [Config.frameCapOf_eq, Nat.add_comm]
  have hcap : cap ≤ Config.bodyCap := by
    rw [Config.bodyCap_eq]
    exact ((Config.legalBodyCap_iff cap).mp hlegal).2
  refine ⟨?bodyTooLong, ?frameTooLong, ?fits⟩
  case bodyTooLong =>
    rintro input rfl hlong
    exact setbodyWith_of_cap_lt hlong s
  case frameTooLong =>
    rintro input rfl hlong
    exact decodeWith_of_frameCap_lt (hframeCap ▸ hlong) s
  case fits =>
    intro hbody hframe
    rw [exec_eq_execOn]
    exact execOn_mono hcap i s hbody (hframeCap ▸ hframe)

end Sys2Proof.Scope
end

section
/-!
PROOFS. The operations by family, and what one of each can do: the setters of `TX`, the operations that only answer, NEW, ENCODE
and DECODE (40_construct.md to 45_drive_body.md). The statements about every instruction go through these lemmas.
-/

namespace Sys2Proof.Family

open Sys2Proof.Machine Sys2Proof.Safety

/-- The operations that leave both banks and the status as they are: the stateless ones, the accessors, UNPACKDRIVE and the
command kinds on the wire (43_checksum.md R76, R77; 44_access.md R79; 45_drive_body.md R88; 30_encoding.md R52). -/
def isObserver : Instr → Bool
  | .cksum _ | .verify _ | .getseq _ | .getcmd _ | .getack _ | .getbody _ | .getlen _ | .getcrc _ | .getstatus
  | .unpackdrive _ | .frameDrive _ _ | .frameResponse _ _ | .frameSleep _ _ => true
  | .new _ | .setseq _ | .setcmd _ | .setack _ | .setbody _ | .setlen _ | .packdrive _ _ _ | .encode | .decode _ => false

/-- What a setter does to bank `TX`; every other instruction leaves the bank as it is here. -/
def setTx : Instr → Bank → Bank
  | .setseq n, b => b.withSeq n
  | .setcmd kind, b => b.withCommand (decide (kind = .drive)) (decide (kind = .response)) (decide (kind = .sleep))
  | .setack v, b => b.withAck v
  | .setbody input, b => b.loadBody input
  | .setlen n, b => b.withLen n
  | .packdrive direction duration speed, b => b.loadBody (driveBody direction duration speed)
  | _, b => b

/-- Every instruction belongs to one of the families. -/
theorem family_cases (i : Instr) :
    (∃ b, i = .new b) ∨ isSetter i = true ∨ i = .encode ∨ (∃ input, i = .decode input) ∨ isObserver i = true := by
  cases i <;> simp [isSetter, isObserver]

/-! ### Setters -/

/-- A setter updates `TX` by `setTx` and answers nothing; SETBODY alone needs its bytes to fit (R65). -/
theorem execOn_setter {cap : Nat} {i : Instr} (hi : isSetter i = true)
    (hfit : ∀ input, i = .setbody input → input.length ≤ cap) (s : State) :
    execOn cap i s = answer .nothing (s.withTx (setTx i s.tx)) := by
  cases i with
  | setbody input => exact if_neg (Nat.not_lt.mpr (hfit input rfl))
  | setcmd kind => cases kind <;> rfl
  | setseq _ | setack _ | setlen _ | packdrive _ _ _ => rfl
  | _ => cases hi

theorem execOn_setter_next {cap : Nat} {i : Instr} (hi : isSetter i = true) (s t : State) :
    execOn cap i s = .next t ↔
      (∀ input, i = .setbody input → input.length ≤ cap) ∧ t = (s.withTx (setTx i s.tx)).respond ⟨.ok, .nothing⟩ := by
  constructor
  · intro h
    have hfit : ∀ input, i = .setbody input → input.length ≤ cap := by
      rintro input rfl
      exact ((setbodyWith_next cap input s t).mp h).1
    rw [execOn_setter hi hfit] at h
    exact ⟨hfit, (Host.Outcome.next.inj h).symm⟩
  · rintro ⟨hfit, rfl⟩
    exact execOn_setter hi hfit s

/-! ### NEW -/

theorem execOn_new_next (cap : Nat) (b : BankId) (s t : State) :
    execOn cap (.new b) s = .next t ↔ t = (s.newBank b).respond ⟨.ok, .nothing⟩ :=
  answer_next .nothing (s.newBank b) t

/-! ### Operations that only answer -/

/-- Two states agree on everything an instruction reads (10_state.md R26, the `r` entries). -/
def ReadAlike (i : Instr) (s t : State) : Prop := ∀ p, reads i p = true → samePart p s t

theorem sameField_refl (f : Field) (b : Bank) : sameField f b b := by cases f <;> simp [sameField]

theorem samePart_refl (p : Part) (s : State) : samePart p s s := by
  cases p with
  | bank b f => exact sameField_refl f (s.bank b)
  | status => rfl

theorem ReadAlike.refl (i : Instr) (s : State) : ReadAlike i s s := fun p _ => samePart_refl p s

/-- The two answer the same response and leave their states alone. -/
def SameAnswer (o o' : Result) (s t : State) : Prop := ∃ r, o = .next (s.respond r) ∧ o' = .next (t.respond r)

theorem sameAnswer_answer {d d' : Data} (h : d = d') (s t : State) : SameAnswer (answer d s) (answer d' t) s t :=
  ⟨⟨.ok, d⟩, rfl, h ▸ rfl⟩

theorem sameAnswer_answerKind {k k' : Option CommandKind} (h : k = k') (s t : State) :
    SameAnswer (answerKind k s) (answerKind k' t) s t := by
  subst h
  cases k with
  | none => exact ⟨⟨.malformedCommandFlags, .nothing⟩, rfl, rfl⟩
  | some k => exact sameAnswer_answer rfl s t

/-- The body of a bank depends on its `BLEN` and the offsets below it alone (10_state.md R19). -/
theorem bodyBytes_congr {a b : Bank} (hblen : a.blen = b.blen) (hbody : sameField .body a b) : a.bodyBytes = b.bodyBytes := by
  unfold Bank.bodyBytes
  rw [← hblen]
  refine Memory.read_congr _ _ 0 _ fun k hk => ?_
  rw [Nat.zero_add]
  exact hbody k hk (hblen ▸ hk)

/-! UNPACKDRIVE, case by case, in terms of the body of its bank (45_drive_body.md R88). -/

theorem execUnpackdrive_refused {b : BankId} {s : State} (hblen : (s.bank b).blen.toNat ≠ 4) :
    execUnpackdrive b s = .refused .bodyNotDriveSize := by
  simp [execUnpackdrive, hblen]

theorem execUnpackdrive_fault {b : BankId} {s : State} (hblen : (s.bank b).blen.toNat = 4)
    (hbody : (s.bank b).bodyBytes.bind parseDrive = none) : execUnpackdrive b s = .fault .bodyByteAbsent := by
  rw [Bank.bodyBytes, hblen] at hbody
  simp only [execUnpackdrive, Config.driveBodySize_eq, hblen, ne_eq, not_true_eq_false, if_false, hbody]

theorem execUnpackdrive_answer {b : BankId} {s : State} {direction duration : Byte} {speed : Half}
    (hblen : (s.bank b).blen.toNat = 4)
    (hbody : (s.bank b).bodyBytes.bind parseDrive = some (direction, duration, speed)) :
    execUnpackdrive b s = answer (.drive direction duration speed) s := by
  rw [Bank.bodyBytes, hblen] at hbody
  simp only [execUnpackdrive, Config.driveBodySize_eq, hblen, ne_eq, not_true_eq_false, if_false, hbody]

/-- An operation that only answers gives the same response on any two states that agree on what it reads, or does not complete
(10_state.md R24, R26). -/
theorem exec_observer_alike {i : Instr} (hi : isObserver i = true) {s t : State} (h : ReadAlike i s t) :
    SameAnswer (exec i s) (exec i t) s t ∨ ∀ u, exec i s ≠ .next u := by
  have hpart (b : BankId) (f : Field) (hr : reads i (.bank b f) = true) : sameField f (s.bank b) (t.bank b) := h _ hr
  cases i with
  | cksum input => exact .inl (sameAnswer_answer rfl s t)
  | verify input => exact .inl (sameAnswer_answer rfl s t)
  | getseq b => exact .inl (sameAnswer_answer (congrArg Data.u16 (hpart b .seq (by simp [reads]))) s t)
  | getcmd b =>
    obtain ⟨hdrive, hresp, hsleep⟩ := hpart b .command (by simp [reads])
    exact .inl (sameAnswer_answerKind (by rw [hdrive, hresp, hsleep]) s t)
  | getack b => exact .inl (sameAnswer_answer (congrArg Data.bit (hpart b .ack (by simp [reads]))) s t)
  | getbody b =>
    have hbytes := bodyBytes_congr (hpart b .blen (by simp [reads, isBodyOf])) (hpart b .body (by simp [reads, isBodyOf]))
    simp only [exec, execGetbody, ← hbytes]
    cases (s.bank b).bodyBytes with
    | none => exact .inr (by simp)
    | some body => exact .inl (sameAnswer_answer rfl s t)
  | getlen b => exact .inl (sameAnswer_answer (congrArg Data.u16 (hpart b .len (by simp [reads]))) s t)
  | getcrc b => exact .inl (sameAnswer_answer (congrArg Data.u8 (hpart b .crc (by simp [reads]))) s t)
  | getstatus => exact .inl (sameAnswer_answer (congrArg Data.u8 (h .status rfl)) s t)
  | unpackdrive b =>
    have hblen : (s.bank b).blen = (t.bank b).blen := hpart b .blen (by simp [reads, isBodyOf])
    have hbytes := bodyBytes_congr hblen (hpart b .body (by simp [reads, isBodyOf]))
    show SameAnswer (execUnpackdrive b s) (execUnpackdrive b t) s t ∨ ∀ u, execUnpackdrive b s ≠ .next u
    by_cases hfour : (s.bank b).blen.toNat = 4
    · cases hdrive : (s.bank b).bodyBytes.bind parseDrive with
      | none => exact .inr (by simp [execUnpackdrive_fault hfour hdrive])
      | some triple =>
        rw [execUnpackdrive_answer hfour hdrive, execUnpackdrive_answer (hblen ▸ hfour) (hbytes ▸ hdrive)]
        exact .inl (sameAnswer_answer rfl s t)
    · exact .inr (by simp [execUnpackdrive_refused hfour])
  | frameDrive ack reserved => exact .inl (sameAnswer_answerKind rfl s t)
  | frameResponse ack reserved => exact .inl (sameAnswer_answerKind rfl s t)
  | frameSleep ack reserved => exact .inl (sameAnswer_answerKind rfl s t)
  | _ => cases hi

/-- Such an operation, when it completes, only adds its response. -/
theorem exec_observer_next {i : Instr} (hi : isObserver i = true) {s s' : State} (h : exec i s = .next s') :
    ∃ r, s' = s.respond r := by
  rcases exec_observer_alike hi (ReadAlike.refl i s) with ⟨r, hr, -⟩ | hno
  · exact ⟨r, Host.Outcome.next.inj (h.symm.trans hr)⟩
  · exact absurd h (hno s')

/-- The capacity is nothing to it (00_scope.md R8). -/
theorem execOn_observer (cap : Nat) {i : Instr} (hi : isObserver i = true) (s : State) : execOn cap i s = exec i s := by
  cases i with
  | setbody _ => cases hi
  | decode _ => cases hi
  | _ => rfl

/-! ### DECODE -/

/-- The frames that pass the structural checks: the body fits the capacity and `length` counts it (42_decode.md R70). -/
theorem parseFrame_bounds {cap : Nat} {input : List Byte} {f : Frame} (h : parseFrame cap input = some f) :
    f.body.length ≤ cap ∧ f.header.length.toNat = 6 + f.body.length := by
  obtain ⟨b0, b1, fl, l0, l1, body, c, -, hlen, hcap, rfl⟩ := (parseFrame_eq_some_iff cap input f).mp h
  exact ⟨hcap, by rw [unle16_toNat, hlen]⟩

end Sys2Proof.Family
end

section
/-!
PROOFS. Reset, the step, the length invariant and the invariant of every run (10_state.md R17 to R25).
-/

namespace Sys2Proof.Invariant

open Sys2Proof.Machine Sys2Proof.Safety Sys2Proof.Family

/-! ### `LEN` counts the body (10_state.md R21) -/

/-- `LEN = 6 + BLEN`. -/
def LenCounts (b : Bank) : Prop := b.len.toNat = 6 + b.blen.toNat

theorem lenCounts_empty : LenCounts Bank.empty := rfl

theorem lenCounts_loadBody (b : Bank) {v : List Byte} (h : v.length ≤ 65529) : LenCounts (b.loadBody v) := by
  simp only [LenCounts, Bank.loadBody_len, Bank.loadBody_blen, frameLength_eq, BitVec.toNat_ofNat]
  omega

/-- `BLEN` of a committed frame; `length` has 16 bits, so the body's length has too. -/
theorem commit_blen_toNat (b : Bank) {f : Frame} (h : f.header.length.toNat = 6 + f.body.length) :
    (b.commit f).blen.toNat = f.body.length := by
  have := f.header.length.isLt
  rw [Bank.commit_blen, BitVec.toNat_ofNat]
  omega

theorem lenCounts_commit (b : Bank) {f : Frame} (h : f.header.length.toNat = 6 + f.body.length) : LenCounts (b.commit f) := by
  rw [LenCounts, commit_blen_toNat b h, Bank.commit_len, h]

/-! ### One bank of the invariant -/

theorem cells_offsets (v : List Byte) (addr : Nat) : (Memory.cells addr v).map Prod.fst = List.range' addr v.length := by
  induction v generalizing addr with
  | nil => rfl
  | cons b v ih => rw [Memory.cells, List.map_cons, ih, List.length_cons, List.range'_succ]

/-- A bank whose buffer is a body's cells, with `BLEN` their number, is in order. -/
theorem bankOk_of_cells {cap : Nat} {b : Bank} {v : List Byte} (hbody : b.body = Memory.cells 0 v)
    (hblen : b.blen.toNat = v.length) (hcap : v.length ≤ cap) : BankOk cap b := by
  refine ⟨?_, hblen ▸ hcap⟩
  rw [hbody, hblen, cells_offsets, List.range_eq_range']

/-- The invariant's part about `TX`. -/
structure TxInv (cap : Nat) (b : Bank) : Prop where
  ok : BankOk cap b
  flags : commandCount b.drive b.resp b.sleep ≤ 1

/-- The invariant's part about `RX` and its status. -/
structure RxInv (cap : Nat) (b : Bank) (status : Byte) : Prop where
  ok : BankOk cap b
  len : b.len.toNat = frameLength b.blen.toNat
  statusLegal : status ∈ ([0x00, 0x02, 0x01, 0x05, 0x09, 0x0D] : List Byte)
  invalidEmpty : statusValid status = false → b = Bank.empty
  flagErrAgrees : statusValid status = true → (statusFlagErr status = true ↔ commandCount b.drive b.resp b.sleep ≠ 1)

/-- The invariant speaks of `TX` alone and of `RX` with its status alone (20_memory.md R39). -/
theorem invOn_iff {cap : Nat} {s : State} : InvOn cap s ↔ TxInv cap s.tx ∧ RxInv cap s.rx s.status :=
  ⟨fun h => ⟨⟨h.txOk, h.txFlags⟩, ⟨h.rxOk, h.rxLen, h.statusLegal, h.invalidEmpty, h.flagErrAgrees⟩⟩,
    fun ⟨ht, hr⟩ => ⟨ht.ok, hr.ok, ht.flags, hr.len, hr.statusLegal, hr.invalidEmpty, hr.flagErrAgrees⟩⟩

theorem bankOk_empty (cap : Nat) : BankOk cap Bank.empty := ⟨rfl, Nat.zero_le cap⟩

theorem txInv_empty (cap : Nat) : TxInv cap Bank.empty := ⟨bankOk_empty cap, by decide⟩

/-- The empty packet under a status with VALID = 0: after reset and NEW RX, or with FRAME_ERR (10_state.md R22, R25). -/
theorem rxInv_empty (cap : Nat) {status : Byte} (h : status = 0x00 ∨ status = statusFrameErr) :
    RxInv cap Bank.empty status := by
  have hvalid : statusValid status = false := by rcases h with rfl | rfl <;> rfl
  refine ⟨bankOk_empty cap, by simp, ?_, fun _ => rfl, ?_⟩
  · rcases h with rfl | rfl <;> decide
  · rw [hvalid]
    exact fun hv => absurd hv (by decide)

theorem bankOk_loadBody {cap : Nat} (hcap : cap ≤ 65529) (b : Bank) {v : List Byte} (hv : v.length ≤ cap) :
    BankOk cap (b.loadBody v) :=
  bankOk_of_cells (b.loadBody_cells v) (holdsBody_loadBody b v (by omega)).1.symm hv

/-- Setters keep `TX` in order, and SETCMD sets one command flag (41_encode.md R68). -/
theorem txInv_setTx {cap : Nat} (hcap : Config.LegalBodyCap cap) {i : Instr}
    (hfit : ∀ input, i = .setbody input → input.length ≤ cap) {b : Bank} (h : TxInv cap b) : TxInv cap (setTx i b) := by
  obtain ⟨hlow, hhigh⟩ := (Config.legalBodyCap_iff cap).mp hcap
  cases i with
  | setcmd kind => exact ⟨h.ok, by cases kind <;> simp [setTx, commandCount]⟩
  | setbody input => exact ⟨bankOk_loadBody hhigh b (hfit input rfl), h.flags⟩
  | packdrive d u v => exact ⟨bankOk_loadBody hhigh b (driveBody_length d u v ▸ hlow), h.flags⟩
  | _ => exact ⟨h.ok, h.flags⟩

/-- ENCODE's one write touches nothing the invariant speaks of. -/
theorem txInv_withCrc {cap : Nat} {b : Bank} (h : TxInv cap b) (c : Byte) : TxInv cap (b.withCrc c) := ⟨h.ok, h.flags⟩

/-- A committed frame under the status its checks give (42_decode.md R70). -/
theorem rxInv_commit {cap : Nat} {input : List Byte} {f : Frame} (hf : parseFrame cap input = some f) (b : Bank) :
    RxInv cap (b.commit f) (statusByte (frameCrcErr input f) (frameFlagErr f)) := by
  obtain ⟨hcap, hlen⟩ := parseFrame_bounds hf
  refine ⟨bankOk_of_cells (b.commit_body f) (commit_blen_toNat b hlen) hcap, ?len, ?legal, ?invalid, ?flagErr⟩
  case len =>
    rw [frameLength_eq]
    exact lenCounts_commit b hlen
  case legal => cases frameCrcErr input f <;> cases frameFlagErr f <;> decide
  case invalid => simp
  case flagErr => simp [frameFlagErr]

/-! ### Every instruction and every step -/

/-- Every instruction keeps the invariant, at every legal capacity. -/
theorem execOn_keeps_inv {cap : Nat} (hcap : Config.LegalBodyCap cap) {i : Instr} {s t : State} (hs : InvOn cap s)
    (h : execOn cap i s = .next t) : InvOn cap t := by
  rw [invOn_iff] at hs ⊢
  obtain ⟨htx, hrx⟩ := hs
  rcases family_cases i with ⟨b, rfl⟩ | hi | rfl | ⟨input, rfl⟩ | hi
  · obtain rfl := (execOn_new_next cap b s t).mp h
    cases b with
    | tx => exact ⟨txInv_empty cap, hrx⟩
    | rx => exact ⟨htx, rxInv_empty cap (.inl rfl)⟩
  · obtain ⟨hfit, rfl⟩ := (execOn_setter_next hi s t).mp h
    exact ⟨txInv_setTx hcap hfit htx, hrx⟩
  · obtain ⟨-, rfl⟩ | ⟨-, body, -, rfl⟩ := (execEncode_next s t).mp h
    · exact ⟨htx, hrx⟩
    · exact ⟨txInv_withCrc htx _, hrx⟩
  · obtain ⟨-, rfl⟩ | ⟨f, hf, rfl⟩ := (decodeWith_next cap input s t).mp h
    · exact ⟨htx, rxInv_empty cap (.inr rfl)⟩
    · exact ⟨htx, rxInv_commit hf s.rx⟩
  · rw [execOn_observer cap hi] at h
    obtain ⟨r, rfl⟩ := exec_observer_next hi h
    exact ⟨htx, hrx⟩

/-- Every step keeps the invariant, at every legal capacity: the queue and the responses are nothing to it. -/
theorem stepOn_keeps_inv {cap : Nat} (hcap : Config.LegalBodyCap cap) {s t : State} (hs : InvOn cap s)
    (h : stepOn cap s = .next t) : InvOn cap t := by
  have hbanks := invOn_iff.mp hs
  rcases stepWith_cases (execOn cap) s with ⟨-, hidle⟩ | ⟨r, rest, i, -, -, hrun⟩ | ⟨r, rest, e, -, -, hrun⟩
  · obtain rfl := Host.Outcome.next.inj (hidle.symm.trans h)
    exact hs
  · exact execOn_keeps_inv (s := { s with requests := rest }) hcap (invOn_iff.mpr hbanks) (hrun.symm.trans h)
  · obtain ⟨-, rfl⟩ := (undecoded_next e _ t).mp (hrun.symm.trans h)
    exact invOn_iff.mpr hbanks

/-- Settles O44; the default machine is the case of the default capacity. -/
theorem everyStepKeepsTheInvariant : Obligations.EveryStepKeepsTheInvariant :=
  ⟨fun s _ hs h => stepOn_keeps_inv Config.bodyCap_legal hs (step_eq_stepOn s ▸ h),
    fun _ _ _ hcap hs h => stepOn_keeps_inv hcap hs h⟩

theorem invOn_reset (cap : Nat) : InvOn cap State.reset := invOn_iff.mpr ⟨txInv_empty cap, rxInv_empty cap (.inl rfl)⟩

/-- Settles O43. -/
theorem invariantHoldsAfterReset : Obligations.InvariantHoldsAfterReset := ⟨invOn_reset _, invOn_reset⟩

/-- Settles O42. SETLEN 0 breaks the length invariant of every bank, since `LEN` counts the header and the checksum too. -/
theorem whoKeepsTheLengthInvariant : Obligations.WhoKeepsTheLengthInvariant := by
  refine ⟨lenCounts_empty, lenCounts_empty, ?new, ?setbody, ?packdrive, ?decode, ?setlen⟩
  case new =>
    intro b s t h
    obtain rfl := (answer_next _ _ t).mp h
    cases b <;> exact lenCounts_empty
  case setbody =>
    intro input s t h
    obtain ⟨hfit, rfl⟩ := (setbodyWith_next _ input s t).mp h
    exact lenCounts_loadBody s.tx (Config.bodyCap_eq ▸ hfit)
  case packdrive =>
    intro d u v s t h
    obtain rfl := (answer_next _ _ t).mp h
    exact lenCounts_loadBody s.tx (by simp)
  case decode =>
    intro input s t h hvalid
    obtain ⟨-, rfl⟩ | ⟨f, hf, rfl⟩ := (decodeWith_next _ input s t).mp h
    · exact absurd hvalid (by simp)
    · exact lenCounts_commit s.rx (parseFrame_bounds hf).2
  case setlen =>
    intro s
    refine ⟨0, _, rfl, ?_⟩
    show 0 ≠ 6 + s.tx.blen.toNat
    omega

/-- Settles O7. -/
theorem stepRunsTheDecodedInstruction : Obligations.StepRunsTheDecodedInstruction := by
  intro s r rest i hqueue hdecode
  rcases step_cases s with ⟨hnil, -⟩ | ⟨r', rest', i', hcons, hi, hstep⟩ | ⟨r', rest', e, hcons, he, -⟩
  · rw [hqueue] at hnil
    cases hnil
  · obtain ⟨rfl, rfl⟩ := List.cons.inj (hqueue.symm.trans hcons)
    obtain rfl := Except.ok.inj (hdecode.symm.trans hi)
    exact hstep
  · obtain ⟨rfl, rfl⟩ := List.cons.inj (hqueue.symm.trans hcons)
    rw [hdecode] at he
    cases he

/-- NEW of both banks from any state leaves the banks and the status of reset (10_state.md R25). -/
theorem execAll_news (s : State) :
    execAll [.new .tx, .new .rx] s =
      .next ((((s.newBank .tx).respond ⟨.ok, .nothing⟩).newBank .rx).respond ⟨.ok, .nothing⟩) := rfl

/-- Settles O10. -/
theorem resetIsTwoNews : Obligations.ResetIsTwoNews :=
  ⟨⟨rfl, rfl, rfl, rfl, rfl, rfl, rfl, rfl⟩, rfl, rfl, fun s => ⟨_, execAll_news s, rfl, rfl, rfl⟩⟩

end Sys2Proof.Invariant
end

section
/-!
PROOFS. The access table (10_state.md R26): each operation writes only its `w` entries and depends only on its `r` entries.
-/

namespace Sys2Proof.Access

open Sys2Proof.Machine Sys2Proof.Safety Sys2Proof.Family

/-! ### One column of `TX` -/

/-- A setter keeps the columns outside its row (10_state.md R26). -/
theorem sameField_setTx {i : Instr} {f : Field} (hw : writes i (.bank .tx f) = false) (b : Bank) :
    sameField f b (setTx i b) := by
  cases i with
  | setseq n =>
    cases f with
    | seq => cases hw
    | _ => simp [sameField, setTx]
  | setcmd kind =>
    cases f with
    | command => cases hw
    | _ => simp [sameField, setTx]
  | setack v =>
    cases f with
    | ack => cases hw
    | _ => simp [sameField, setTx]
  | setlen n =>
    cases f with
    | len => cases hw
    | _ => simp [sameField, setTx]
  | setbody _ | packdrive _ _ _ =>
    cases f with
    | len | blen | body => cases hw
    | _ => simp [sameField, setTx]
  | _ => exact sameField_refl f b

/-- A body loaded whole is the same on every bank, and the other columns are the bank's own. -/
theorem sameField_loadBody {f : Field} {a b : Bank} (v : List Byte)
    (h : sameField f a b ∨ f = .len ∨ f = .blen ∨ f = .body) : sameField f (a.loadBody v) (b.loadBody v) := by
  cases f with
  | len | blen => rfl
  | body =>
    intro k _ _
    rw [Bank.loadBody_cells, Bank.loadBody_cells]
  | _ => exact h.resolve_right (by simp)

/-- After a setter two banks agree in a column of its row, and in every column in which they agreed. -/
theorem sameField_setTx_setTx {i : Instr} (hi : isSetter i = true) {f : Field} {a b : Bank}
    (h : sameField f a b ∨ writes i (.bank .tx f) = true) : sameField f (setTx i a) (setTx i b) := by
  cases i with
  | setseq n =>
    cases f with
    | seq => rfl
    | _ => exact h.resolve_right (by simp [writes])
  | setcmd kind =>
    cases f with
    | command => exact ⟨rfl, rfl, rfl⟩
    | _ => exact h.resolve_right (by simp [writes])
  | setack v =>
    cases f with
    | ack => rfl
    | _ => exact h.resolve_right (by simp [writes])
  | setlen n =>
    cases f with
    | len => rfl
    | _ => exact h.resolve_right (by simp [writes])
  | setbody _ | packdrive _ _ _ => exact sameField_loadBody _ (h.imp_right (by simp [writes, isBodyOf]))
  | _ => cases hi

/-- Storing one checksum in two banks. -/
theorem sameField_withCrc {f : Field} {a b : Bank} (c : Byte) (h : sameField f a b ∨ f = .crc) :
    sameField f (a.withCrc c) (b.withCrc c) := by
  cases f with
  | crc => rfl
  | _ => exact h.resolve_right (by simp)

/-- NEW's row lists every column but the body, and the empty packet has no body byte to compare (10_state.md R19). -/
theorem sameField_empty {b : BankId} {f : Field} (hw : writes (.new b) (.bank b f) = false) (a : Bank) :
    sameField f a Bank.empty := by
  cases f with
  | body => exact fun k _ hk => absurd hk (Nat.not_lt_zero k)
  | _ => cases b <;> cases hw

/-! ### Rows that lie in one bank -/

theorem writes_observer {i : Instr} (hi : isObserver i = true) (p : Part) : writes i p = false := by
  cases i with
  | new _ | setseq _ | setcmd _ | setack _ | setbody _ | setlen _ | packdrive _ _ _ | encode | decode _ => cases hi
  | _ => rfl

/-- Setters write columns of `TX` only (40_construct.md R60). -/
theorem writes_setter {i : Instr} (hi : isSetter i = true) {p : Part} (hw : writes i p = true) : ∃ f, p = .bank .tx f := by
  cases i with
  | setseq _ | setcmd _ | setack _ | setlen _ => exact ⟨_, of_decide_eq_true hw⟩
  | setbody _ | packdrive _ _ _ =>
    simp only [writes, isBodyOf, Bool.or_eq_true, decide_eq_true_eq] at hw
    rcases hw with h | h | h <;> exact ⟨_, h⟩
  | _ => cases hi

theorem writes_new_tx {p : Part} (hw : writes (.new .tx) p = true) : ∃ f, p = .bank .tx f := by
  cases p with
  | status => cases hw
  | bank b f =>
    cases b with
    | tx => exact ⟨f, rfl⟩
    | rx => cases hw

/-! ### The `w` entries -/

/-- Every part outside the row of `i` is the same in both states. -/
def OthersKept (i : Instr) (s t : State) : Prop := ∀ p, writes i p = false → samePart p s t

/-- It is enough to look at the columns of `TX`, the columns of `RX` and the status. -/
theorem othersKept_of_columns {i : Instr} {s t : State}
    (htx : ∀ f, writes i (.bank .tx f) = false → sameField f s.tx t.tx)
    (hrx : ∀ f, writes i (.bank .rx f) = false → sameField f s.rx t.rx)
    (hstatus : writes i .status = false → s.status = t.status) : OthersKept i s t := by
  intro p hw
  cases p with
  | status => exact hstatus hw
  | bank b f =>
    cases b with
    | tx => exact htx f hw
    | rx => exact hrx f hw

theorem othersKept_respond (i : Instr) (s : State) (r : Response) : OthersKept i s (s.respond r) :=
  othersKept_of_columns (fun f _ => sameField_refl f _) (fun f _ => sameField_refl f _) (fun _ => rfl)

/-- What an operation that completes leaves unchanged, by family. -/
theorem exec_othersKept {i : Instr} {s t : State} (h : exec i s = .next t) :
    OthersKept i s t ∧ t.requests = s.requests ∧ ∃ r, t.responses = s.responses ++ [r] := by
  rw [exec_eq_execOn] at h
  rcases family_cases i with ⟨b, rfl⟩ | hi | rfl | ⟨input, rfl⟩ | hi
  · obtain rfl := (execOn_new_next _ b s t).mp h
    cases b with
    | tx =>
      exact ⟨othersKept_of_columns (fun _ hw => sameField_empty hw _) (fun f _ => sameField_refl f _) (fun _ => rfl),
        rfl, _, rfl⟩
    | rx =>
      exact ⟨othersKept_of_columns (fun f _ => sameField_refl f _) (fun _ hw => sameField_empty hw _) (fun hw => by cases hw),
        rfl, _, rfl⟩
  · obtain ⟨-, rfl⟩ := (execOn_setter_next hi s t).mp h
    exact ⟨othersKept_of_columns (fun _ hw => sameField_setTx hw _) (fun f _ => sameField_refl f _) (fun _ => rfl),
      rfl, _, rfl⟩
  · obtain ⟨-, rfl⟩ | ⟨-, body, -, rfl⟩ := (execEncode_next s t).mp h
    · exact ⟨othersKept_respond _ s _, rfl, _, rfl⟩
    · refine ⟨othersKept_of_columns (fun f hw => ?_) (fun f _ => sameField_refl f _) (fun _ => rfl), rfl, _, rfl⟩
      cases f with
      | crc => cases hw
      | _ => simp [sameField]
  · have hrow (f : Field) : writes (.decode input) (.bank .rx f) ≠ false := by simp [writes, isOfBank]
    obtain ⟨-, rfl⟩ | ⟨f, -, rfl⟩ := (decodeWith_next _ input s t).mp h
    all_goals
      exact ⟨othersKept_of_columns (fun f _ => sameField_refl f _) (fun f hw => absurd hw (hrow f)) (fun hw => by cases hw),
        rfl, _, rfl⟩
  · rw [execOn_observer _ hi] at h
    obtain ⟨r, rfl⟩ := exec_observer_next hi h
    exact ⟨othersKept_respond i s r, rfl, r, rfl⟩

/-- Settles O47. -/
theorem operationsWriteOnlyTheirRow : Obligations.OperationsWriteOnlyTheirRow := fun _ _ _ h => exec_othersKept h

/-! ### The `r` entries -/

/-- The part is in the row of `i` and `i` answered `r` after writing it: a failed ENCODE writes nothing (41_encode.md R67). -/
def Written (i : Instr) (r : Response) (p : Part) : Prop := writes i p = true ∧ (i = .encode → r.code = .ok)

/-- From `s` and `t` to `s'` and `t'`: parts that agreed agree, and parts that were written agree. -/
def StaysAlike (i : Instr) (r : Response) (s t s' t' : State) : Prop :=
  ∀ p, samePart p s t ∨ Written i r p → samePart p s' t'

/-- An operation that writes columns of `TX` only. -/
theorem staysAlike_withTx {i : Instr} {r : Response} {s t : State} {a b : Bank}
    (hrow : ∀ p, writes i p = true → ∃ f, p = .bank .tx f)
    (hcolumns : ∀ f, sameField f s.tx t.tx ∨ Written i r (.bank .tx f) → sameField f a b) :
    StaysAlike i r s t ((s.withTx a).respond r) ((t.withTx b).respond r) := by
  have hother {p : Part} (hp : ∀ f, p ≠ .bank .tx f) : ¬ Written i r p := fun hw => (hrow p hw.1).elim hp
  intro p h
  cases p with
  | status => exact h.resolve_right (hother (by simp))
  | bank b f =>
    cases b with
    | tx => exact hcolumns f h
    | rx => exact h.resolve_right (hother (by simp))

/-- An operation that puts the same packet and the same status into both states and does not write `TX`. -/
theorem staysAlike_withRx {i : Instr} {r : Response} (s t : State) (b : Bank) (status : Byte)
    (hrow : ∀ f, writes i (.bank .tx f) = false) :
    StaysAlike i r s t (((s.withRx b).withStatus status).respond r) (((t.withRx b).withStatus status).respond r) := by
  intro p h
  cases p with
  | status => rfl
  | bank c f =>
    cases c with
    | tx => exact h.resolve_right fun ⟨hw, _⟩ => by simp [hrow f] at hw
    | rx => exact sameField_refl f b

/-- An operation that wrote nothing. -/
theorem staysAlike_respond {i : Instr} {r : Response} (s t : State) (hrow : ∀ p, ¬ Written i r p) :
    StaysAlike i r s t (s.respond r) (t.respond r) := by
  intro p h
  have hp := h.resolve_right (hrow p)
  cases p with
  | status => exact hp
  | bank b f => cases b <;> exact hp

/-- ENCODE reads every column of `TX` but the checksum: its length check, its header and its body (41_encode.md R67). -/
theorem encode_reads {s t : State} (h : ReadAlike .encode s t) :
    s.tx.len = t.tx.len ∧ s.tx.blen = t.tx.blen ∧ s.tx.header = t.tx.header ∧ s.tx.bodyBytes = t.tx.bodyBytes := by
  have hseq : s.tx.seq = t.tx.seq := h (.bank .tx .seq) rfl
  obtain ⟨hdrive, hresp, hsleep⟩ : sameField .command s.tx t.tx := h (.bank .tx .command) rfl
  have hack : s.tx.ack = t.tx.ack := h (.bank .tx .ack) rfl
  have hlen : s.tx.len = t.tx.len := h (.bank .tx .len) rfl
  have hblen : s.tx.blen = t.tx.blen := h (.bank .tx .blen) rfl
  have hbody : sameField .body s.tx t.tx := h (.bank .tx .body) rfl
  refine ⟨hlen, hblen, ?_, bodyBytes_congr hblen hbody⟩
  simp only [Bank.header, hseq, hdrive, hresp, hsleep, hack, hlen]

/-- What an operation that completes on one state does on another that agrees with it on what the operation reads, by
family. -/
theorem exec_staysAlike {i : Instr} {s t s' : State} (halike : ReadAlike i s t) (h : exec i s = .next s') :
    ∃ t' r, exec i t = .next t' ∧ s'.responses = s.responses ++ [r] ∧ t'.responses = t.responses ++ [r] ∧
      StaysAlike i r s t s' t' := by
  rcases family_cases i with ⟨b, rfl⟩ | hi | rfl | ⟨input, rfl⟩ | hi
  · obtain rfl := (answer_next _ _ s').mp h
    refine ⟨_, ⟨.ok, .nothing⟩, rfl, ?_⟩
    cases b with
    | tx => exact ⟨rfl, rfl, staysAlike_withTx (fun _ => writes_new_tx) (fun f _ => sameField_refl f _)⟩
    | rx => exact ⟨rfl, rfl, staysAlike_withRx s t Bank.empty 0 (fun _ => rfl)⟩
  · rw [exec_eq_execOn] at h ⊢
    obtain ⟨hfit, rfl⟩ := (execOn_setter_next hi s s').mp h
    exact ⟨_, ⟨.ok, .nothing⟩, execOn_setter hi hfit t, rfl, rfl,
      staysAlike_withTx (fun _ => writes_setter hi) (fun f hf => sameField_setTx_setTx hi (hf.imp_right And.left))⟩
  · obtain ⟨hlen, hblen, hheader, hbytes⟩ := encode_reads halike
    obtain ⟨hbad, rfl⟩ | ⟨hgood, body, hbody, rfl⟩ := (execEncode_next s s').mp h
    · exact ⟨_, _, (execEncode_next t _).mpr (.inl ⟨hlen ▸ hblen ▸ hbad, rfl⟩), rfl, rfl,
        staysAlike_respond s t fun p hw => by cases hw.2 rfl⟩
    · rw [← Bank.bodyBytes_eq_some_iff, hbytes, Bank.bodyBytes_eq_some_iff] at hbody
      rw [hheader]
      exact ⟨_, _, (execEncode_next t _).mpr (.inr ⟨hlen ▸ hblen ▸ hgood, body, hbody, rfl⟩), rfl, rfl,
        staysAlike_withTx (fun p hw => ⟨_, of_decide_eq_true hw⟩)
          (fun f hf => sameField_withCrc _ (hf.imp_right fun hw => by simpa [writes] using hw.1))⟩
  · obtain ⟨hbad, rfl⟩ | ⟨f, hf, rfl⟩ := (decodeWith_next _ input s s').mp h
    · exact ⟨_, _, (decodeWith_next _ input t _).mpr (.inl ⟨hbad, rfl⟩), rfl, rfl,
        staysAlike_withRx s t Bank.empty statusFrameErr (fun _ => rfl)⟩
    · rw [s.rx.commit_eq t.rx]
      exact ⟨_, _, (decodeWith_next _ input t _).mpr (.inr ⟨f, hf, rfl⟩), rfl, rfl,
        staysAlike_withRx s t (t.rx.commit f) _ (fun _ => rfl)⟩
  · obtain ⟨r, hs, ht⟩ | hno := exec_observer_alike hi halike
    · obtain rfl := Host.Outcome.next.inj (h.symm.trans hs)
      exact ⟨_, r, ht, rfl, rfl, staysAlike_respond s t fun p hw => by simp [Written, writes_observer hi p] at hw⟩
    · exact absurd h (hno s')

/-- Settles O48. -/
theorem operationsReadOnlyTheirRow : Obligations.OperationsReadOnlyTheirRow := by
  intro i s t s' halike h
  obtain ⟨t', r, ht, hsr, htr, hstays⟩ := exec_staysAlike halike h
  exact ⟨t', r, ht, hsr, htr, fun p hp => hstays p (.inl hp), fun p hw hok => hstays p (.inr ⟨hw, hok⟩)⟩

end Sys2Proof.Access
end

section
/-!
PROOFS. The memory rules (20_memory.md): the little-endian fields, operations in issue order, the body buffers' canonical form,
and accesses that stay inside their body.
-/

namespace Sys2Proof.BodyMemory

open Sys2Proof.Machine Sys2Proof.Safety Sys2Proof.Family

/-! ### Little-endian fields (20_memory.md R33) -/

/-- Settles O5. -/
theorem littleEndianFields : Obligations.LittleEndianFields :=
  ⟨fun v => ⟨v.extractLsb' 0 8, v.extractLsb' 8 8, rfl, low_byte_toNat v, high_byte_toNat v, unle16_le16 v⟩,
    fun b0 b1 => ⟨unle16_toNat b0 b1, le16_unle16 b0 b1⟩⟩

/-! ### The decoder on encoded instructions (30_encoding.md R52, R55, R56) -/

theorem eitherBank_bit (b : BankId) (i : BankId → Instr) : eitherBank b.bit 0#16 i = .ok (i b) := by
  simp [eitherBank]

theorem fixedBank_self (bk : Bool) (i : Except DecodeError Instr) : fixedBank bk bk i = i := if_pos rfl

theorem noImm_zero (i : Instr) : noImm 0#16 i = .ok i := if_pos rfl

theorem decodeKind_code (kind : CommandKind) : decodeKind (BitVec.ofNat 16 kind.code) = .ok (.setcmd kind) := by
  cases kind <;> rfl

theorem decodeAck_toNat (v : Bool) : decodeAck (BitVec.ofNat 16 v.toNat) = .ok (.setack v) := by cases v <;> rfl

/-- The FRAME row of a command kind. -/
def frameInstr : CommandKind → Bool → BitVec 4 → Instr
  | .drive => .frameDrive
  | .response => .frameResponse
  | .sleep => .frameSleep

theorem decodeFlagsByte_frameFlags (kind : CommandKind) (ack : Bool) (reserved : BitVec 4) :
    decodeFlagsByte (frameFlags kind ack reserved) = .ok (frameInstr kind ack reserved) := by
  cases kind <;> revert ack reserved <;> decide

/-- The decoder reads an instruction back from the request that encodes it. -/
theorem decode_encode (i : Instr) : decode (encode i) = .ok i := by
  cases i with
  | frameDrive ack reserved => exact decodeFlagsByte_frameFlags .drive ack reserved
  | frameResponse ack reserved => exact decodeFlagsByte_frameFlags .response ack reserved
  | frameSleep ack reserved => exact decodeFlagsByte_frameFlags .sleep ack reserved
  | new b | getseq b | getcmd b | getack b | getbody b | getlen b | getcrc b | unpackdrive b =>
    simp [encode, plainCommand, decode, decodeCommand, eitherBank_bit]
  | setseq n | setlen n => simp [encode, plainCommand, decode, decodeCommand, fixedBank_self]
  | setcmd kind => simp [encode, plainCommand, decode, decodeCommand, fixedBank_self, decodeKind_code]
  | setack v => simp [encode, plainCommand, decode, decodeCommand, fixedBank_self, decodeAck_toNat]
  | encode | getstatus => simp [encode, plainCommand, decode, decodeCommand, fixedBank_self, noImm_zero]
  | setbody input | decode input | cksum input | verify input =>
    simp [encode, sequenceCommand, decode, decodeCommand, fixedBank_self, noImm_zero]
  | packdrive d u v => simp [encode, decode, decodeCommand, fixedBank_self, noImm_zero]

/-! ### Operations in issue order (20_memory.md R39) -/

/-- The step of a queue that begins with an issued instruction. -/
theorem step_issued (i : Instr) (s : State) (q : List Request) :
    step { s with requests := encode i :: q } = withQueue q (exec i s) := by
  rw [Invariant.stepRunsTheDecodedInstruction _ _ _ _ rfl (decode_encode i)]
  exact exec_queue i s q

/-- Settles O9, by induction on the script: an operation neither reads nor changes the queue, so what is left of it after a step
is the rest of the script. -/
theorem stepsOfAnIssuedScriptApplyItInOrder : Obligations.StepsOfAnIssuedScriptApplyItInOrder := by
  intro is s rest
  induction is generalizing s with
  | nil => rfl
  | cons i is ih =>
    have hstep : step { s with requests := (i :: is).map encode ++ rest } = withQueue (is.map encode ++ rest) (exec i s) :=
      step_issued i s _
    rw [List.length_cons, run_succ, hstep, execAll, exec_queue i s rest]
    cases exec i s with
    | next t => exact ih t
    | fault f => rfl
    | refused r => rfl

/-! ### The canonical form of the buffers (20_memory.md R28; log entry 7) -/

/-- Both buffers list strictly rising offsets. -/
def BuffersCanonical (s : State) : Prop := Memory.wf s.tx.body = true ∧ Memory.wf s.rx.body = true

theorem wf_loadBody (b : Bank) (v : List Byte) : Memory.wf (b.loadBody v).body = true := by
  rw [Bank.loadBody_cells]
  exact Memory.wf_cells v 0

theorem wf_commit (b : Bank) (f : Frame) : Memory.wf (b.commit f).body = true := by
  rw [Bank.commit_body]
  exact Memory.wf_cells f.body 0

/-- A setter loads a body whole or leaves the buffer alone. -/
theorem wf_setTx (i : Instr) {b : Bank} (h : Memory.wf b.body = true) : Memory.wf (setTx i b).body = true := by
  cases i with
  | setbody input => exact wf_loadBody b input
  | packdrive d u v => exact wf_loadBody b (driveBody d u v)
  | _ => exact h

theorem execOn_keeps_buffersCanonical {cap : Nat} {i : Instr} {s t : State} (hs : BuffersCanonical s)
    (h : execOn cap i s = .next t) : BuffersCanonical t := by
  obtain ⟨htx, hrx⟩ := hs
  rcases family_cases i with ⟨b, rfl⟩ | hi | rfl | ⟨input, rfl⟩ | hi
  · obtain rfl := (execOn_new_next cap b s t).mp h
    cases b with
    | tx => exact ⟨rfl, hrx⟩
    | rx => exact ⟨htx, rfl⟩
  · obtain ⟨-, rfl⟩ := (execOn_setter_next hi s t).mp h
    exact ⟨wf_setTx i htx, hrx⟩
  · obtain ⟨-, rfl⟩ | ⟨-, body, -, rfl⟩ := (execEncode_next s t).mp h
    · exact ⟨htx, hrx⟩
    · exact ⟨htx, hrx⟩
  · obtain ⟨-, rfl⟩ | ⟨f, -, rfl⟩ := (decodeWith_next cap input s t).mp h
    · exact ⟨htx, rfl⟩
    · exact ⟨htx, wf_commit s.rx f⟩
  · rw [execOn_observer cap hi] at h
    obtain ⟨r, rfl⟩ := exec_observer_next hi h
    exact ⟨htx, hrx⟩

/-- Settles O45: the queue and the responses are nothing to the buffers, so it is the instructions' lemma. -/
theorem everyStepKeepsTheBuffersCanonical : Obligations.EveryStepKeepsTheBuffersCanonical := by
  intro s t htx hrx h
  rcases step_cases s with ⟨-, hidle⟩ | ⟨r, rest, i, -, -, hrun⟩ | ⟨r, rest, e, -, -, hrun⟩
  · obtain rfl := Host.Outcome.next.inj (hidle.symm.trans h)
    exact ⟨htx, hrx⟩
  · have hexec : exec i { s with requests := rest } = .next t := hrun.symm.trans h
    rw [exec_eq_execOn] at hexec
    exact execOn_keeps_buffersCanonical (s := { s with requests := rest }) ⟨htx, hrx⟩ hexec
  · obtain ⟨-, rfl⟩ := (undecoded_next e _ t).mp (hrun.symm.trans h)
    exact ⟨htx, hrx⟩

/-! ### Accesses inside their body (20_memory.md R31; 60_exceptions.md R101) -/

/-- A SETBODY over capacity (40_construct.md R65). -/
def BodyTooLong (i : Instr) : Prop := ∃ input : List Byte, i = .setbody input ∧ Config.bodyCap < input.length

/-- An UNPACKDRIVE of a body that is not 4 bytes (45_drive_body.md R88). -/
def BodyNotDriveSize (i : Instr) (s : State) : Prop := ∃ b, i = .unpackdrive b ∧ (s.bank b).blen.toNat ≠ 4

theorem exec_refused_of_bodyTooLong {i : Instr} (h : BodyTooLong i) (s : State) : isRefused (exec i s) = true := by
  obtain ⟨input, rfl, hlong⟩ := h
  rw [exec_eq_execOn]
  exact congrArg isRefused (Scope.setbodyWith_of_cap_lt hlong s)

theorem exec_refused_of_bodyNotDriveSize {i : Instr} {s : State} (h : BodyNotDriveSize i s) :
    isRefused (exec i s) = true := by
  obtain ⟨b, rfl, hblen⟩ := h
  exact congrArg isRefused (execUnpackdrive_refused hblen)

theorem bodyBytes_of_inv {s : State} (hs : Inv s) (b : BankId) : ∃ body, (s.bank b).bodyBytes = some body := by
  have hok : BankOk Config.bodyCap (s.bank b) := by
    cases b with
    | tx => exact hs.txOk
    | rx => exact hs.rxOk
  obtain ⟨body, hbody⟩ := BankOk.holdsBody _ hok
  exact ⟨body, (Bank.bodyBytes_eq_some_iff _ body).mpr hbody⟩

theorem parseDrive_of_length_four {body : List Byte} (h : body.length = 4) :
    ∃ direction duration speed, parseDrive body = some (direction, duration, speed) := by
  obtain ⟨b0, b1, b2, b3, rfl⟩ := List.length_eq_four.mp h
  exact ⟨b0, b1, unle16 b2 b3, rfl⟩

theorem answerKind_completes (k : Option CommandKind) (s : State) : ∃ t, answerKind k s = .next t := by
  cases k with
  | none => exact ⟨_, rfl⟩
  | some k => exact ⟨_, rfl⟩

theorem execGetbody_completes {b : BankId} {s : State} {body : List Byte} (h : (s.bank b).bodyBytes = some body) :
    ∃ t, execGetbody b s = .next t := by
  rw [execGetbody, h]
  exact ⟨_, rfl⟩

theorem execUnpackdrive_completes {b : BankId} {s : State} {body : List Byte} (hbody : (s.bank b).bodyBytes = some body)
    (hblen : (s.bank b).blen.toNat = 4) : ∃ t, execUnpackdrive b s = .next t := by
  have hlength : body.length = 4 := ((Bank.bodyBytes_eq_some_iff _ body).mp hbody).1.trans hblen
  obtain ⟨direction, duration, speed, hparse⟩ := parseDrive_of_length_four hlength
  have htriple : (s.bank b).bodyBytes.bind parseDrive = some (direction, duration, speed) := by
    rw [hbody, Option.bind_some, hparse]
  exact ⟨_, execUnpackdrive_answer hblen htriple⟩

theorem execEncode_completes {s : State} {body : List Byte} (h : s.tx.bodyBytes = some body) :
    ∃ t, execEncode s = .next t := by
  by_cases hlen : s.tx.len.toNat = 6 + s.tx.blen.toNat
  · exact ⟨_, (execEncode_next s _).mpr (.inr ⟨hlen, body, (Bank.bodyBytes_eq_some_iff _ body).mp h, rfl⟩)⟩
  · exact ⟨_, (execEncode_next s _).mpr (.inl ⟨hlen, rfl⟩)⟩

theorem decodeWith_completes (cap : Nat) (input : List Byte) (s : State) : ∃ t, decodeWith cap input s = .next t := by
  cases hparse : parseFrame cap input with
  | none => exact ⟨_, (decodeWith_next cap input s _).mpr (.inl ⟨hparse, rfl⟩)⟩
  | some f => exact ⟨_, (decodeWith_next cap input s _).mpr (.inr ⟨f, hparse, rfl⟩)⟩

/-- Of the operations that only answer, GETBODY and UNPACKDRIVE alone read a buffer. -/
theorem exec_observer_completes {i : Instr} (hi : isObserver i = true) {s : State} (hs : Inv s)
    (hdrive : ¬ BodyNotDriveSize i s) : ∃ t, exec i s = .next t := by
  cases i with
  | getbody b =>
    obtain ⟨body, hbody⟩ := bodyBytes_of_inv hs b
    exact execGetbody_completes hbody
  | unpackdrive b =>
    obtain ⟨body, hbody⟩ := bodyBytes_of_inv hs b
    exact execUnpackdrive_completes hbody (not_not.mp fun hblen => hdrive ⟨b, rfl, hblen⟩)
  | getcmd _ | frameDrive _ _ | frameResponse _ _ | frameSleep _ _ => exact answerKind_completes _ s
  | cksum _ | verify _ | getseq _ | getack _ | getlen _ | getcrc _ | getstatus => exact ⟨_, rfl⟩
  | _ => cases hi

/-- What is not refused for its size completes. -/
theorem exec_completes {i : Instr} {s : State} (hs : Inv s) (hlong : ¬ BodyTooLong i) (hdrive : ¬ BodyNotDriveSize i s) :
    ∃ t, exec i s = .next t := by
  rcases family_cases i with ⟨b, rfl⟩ | hi | rfl | ⟨input, rfl⟩ | hi
  · exact ⟨_, rfl⟩
  · have hfit : ∀ input, i = .setbody input → input.length ≤ Config.bodyCap := fun input heq =>
      Nat.not_lt.mp fun hlt => hlong ⟨input, heq, hlt⟩
    rw [exec_eq_execOn, execOn_setter hi hfit]
    exact ⟨_, rfl⟩
  · obtain ⟨body, hbody⟩ := bodyBytes_of_inv hs .tx
    exact execEncode_completes hbody
  · exact decodeWith_completes _ input s
  · exact exec_observer_completes hi hs hdrive

/-- Settles O46. -/
theorem everyOperationCompletesUnlessRefused : Obligations.EveryOperationCompletesUnlessRefused := by
  intro i s hs
  by_cases hlong : BodyTooLong i
  · exact .inl ⟨exec_refused_of_bodyTooLong hlong s, .inl hlong⟩
  by_cases hdrive : BodyNotDriveSize i s
  · exact .inl ⟨exec_refused_of_bodyNotDriveSize hdrive, .inr hdrive⟩
  · exact .inr ⟨hlong, hdrive, exec_completes hs hlong hdrive⟩

end Sys2Proof.BodyMemory
end

section
/-!
PROOFS. The encodings (30_encoding.md): command words and their operation table, the flags byte and its kinds, and the
pseudo-operations with the frames they lead to.
-/

namespace Sys2Proof.Encodings

open Sys2Proof.Machine Sys2Proof.Safety Sys2Proof.Family Sys2Proof.BodyMemory

/-- Settles O1. -/
theorem decodeOfEncodeIsTheInstruction : Obligations.DecodeOfEncodeIsTheInstruction := decode_encode

/-! ### What the readers of a command word's fields accept (R55, R56) -/

theorem eitherBank_eq_ok_iff {bk : Bool} {imm : Half} {row : BankId → Instr} {i : Instr} :
    eitherBank bk imm row = .ok i ↔ imm = 0 ∧ row (BankId.ofBit bk) = i := by
  unfold eitherBank
  split <;> simp_all

theorem fixedBank_eq_ok_iff {want bk : Bool} {e : Except DecodeError Instr} {i : Instr} :
    fixedBank want bk e = .ok i ↔ bk = want ∧ e = .ok i := by
  unfold fixedBank
  split <;> simp [*]

theorem noImm_eq_ok_iff {imm : Half} {j i : Instr} : noImm imm j = .ok i ↔ imm = 0 ∧ j = i := by
  unfold noImm
  split <;> simp_all

theorem eq_ofNat_of_toNat {w k : Nat} {x : BitVec w} (h : x.toNat = k) : x = BitVec.ofNat w k := by
  rw [← h, BitVec.ofNat_toNat, BitVec.setWidth_eq]

theorem decodeKind_eq_ok {imm : Half} {i : Instr} (h : decodeKind imm = .ok i) :
    ∃ kind, imm = BitVec.ofNat 16 kind.code ∧ i = .setcmd kind := by
  unfold decodeKind at h
  split at h
  case h_1 himm => exact ⟨.drive, eq_ofNat_of_toNat himm, (Except.ok.inj h).symm⟩
  case h_2 himm => exact ⟨.sleep, eq_ofNat_of_toNat himm, (Except.ok.inj h).symm⟩
  case h_3 himm => exact ⟨.response, eq_ofNat_of_toNat himm, (Except.ok.inj h).symm⟩
  case h_4 => cases h

theorem decodeAck_eq_ok {imm : Half} {i : Instr} (h : decodeAck imm = .ok i) :
    ∃ v : Bool, imm = BitVec.ofNat 16 v.toNat ∧ i = .setack v := by
  unfold decodeAck at h
  split at h
  case h_1 himm => exact ⟨false, eq_ofNat_of_toNat himm, (Except.ok.inj h).symm⟩
  case h_2 himm => exact ⟨true, eq_ofNat_of_toNat himm, (Except.ok.inj h).symm⟩
  case h_3 => cases h

/-! ### Encoding what was decoded from a command word (R55, R56) -/

/-- The instruction encodes to this very word, and beside it to what it takes of the operand word and the byte sequence. -/
def EncodesTo (i : Instr) (w operand : Word) (input : List Byte) : Prop :=
  ∃ operand' input', encode i = .command w operand' input' ∧ (operand' = operand ∨ operand' = 0) ∧
    (input' = input ∨ input' = [])

section Rows

variable {op : BitVec 8} {k : Nat} {bk want : Bool} {imm : Half} {operand : Word} {input : List Byte} {i : Instr}

theorem encodesTo_of_plain (hop : op.toNat = k) (hi : encode i = plainCommand (BitVec.ofNat 8 k) bk imm) :
    EncodesTo i (commandWord op bk imm) operand input := by
  obtain rfl := eq_ofNat_of_toNat hop
  exact ⟨0, [], hi, .inr rfl, .inr rfl⟩

theorem encodesTo_of_eitherBank {row : BankId → Instr} (h : eitherBank bk imm row = .ok i) (hop : op.toNat = k)
    (hrow : ∀ b, encode (row b) = plainCommand (BitVec.ofNat 8 k) b.bit 0) :
    EncodesTo i (commandWord op bk imm) operand input := by
  obtain ⟨rfl, rfl⟩ := eitherBank_eq_ok_iff.mp h
  exact encodesTo_of_plain hop (by rw [hrow, BankId.bit_ofBit])

/-- A row with a free immediate. -/
theorem encodesTo_of_immediate {row : Instr} (h : fixedBank want bk (.ok row) = .ok i) (hop : op.toNat = k)
    (hrow : encode row = plainCommand (BitVec.ofNat 8 k) want imm) : EncodesTo i (commandWord op bk imm) operand input := by
  obtain ⟨rfl, hok⟩ := fixedBank_eq_ok_iff.mp h
  obtain rfl := Except.ok.inj hok
  exact encodesTo_of_plain hop hrow

/-- A row without an immediate, with whatever it takes from beside the word. -/
theorem encodesTo_of_noImm {row : Instr} (h : fixedBank want bk (noImm imm row) = .ok i) (hop : op.toNat = k)
    (hrow : EncodesTo row (commandWord (BitVec.ofNat 8 k) want 0) operand input) :
    EncodesTo i (commandWord op bk imm) operand input := by
  obtain ⟨rfl, hok⟩ := fixedBank_eq_ok_iff.mp h
  obtain ⟨rfl, rfl⟩ := noImm_eq_ok_iff.mp hok
  obtain rfl := eq_ofNat_of_toNat hop
  exact hrow

end Rows

/-- What a command word decodes to encodes to that word. -/
theorem encodesTo_of_decodeCommand {w operand : Word} {input : List Byte} {i : Instr}
    (h : decodeCommand w operand input = .ok i) : EncodesTo i w operand input := by
  unfold decodeCommand at h
  split at h
  case isTrue => cases h
  case isFalse hzero =>
    rw [← commandWord_fields w (not_not.mp hzero)]
    dsimp only at h
    split at h
    case h_1 hop | h_12 hop | h_13 hop | h_14 hop | h_15 hop | h_16 hop | h_17 hop | h_19 hop =>
      exact encodesTo_of_eitherBank h hop fun _ => rfl
    case h_2 hop | h_6 hop => exact encodesTo_of_immediate h hop rfl
    case h_3 hop =>
      obtain ⟨hbk, hkind⟩ := fixedBank_eq_ok_iff.mp h
      obtain ⟨kind, himm, rfl⟩ := decodeKind_eq_ok hkind
      exact encodesTo_of_plain hop (by rw [hbk, himm]; rfl)
    case h_4 hop =>
      obtain ⟨hbk, hack⟩ := fixedBank_eq_ok_iff.mp h
      obtain ⟨v, himm, rfl⟩ := decodeAck_eq_ok hack
      exact encodesTo_of_plain hop (by rw [hbk, himm]; rfl)
    case h_5 hop | h_9 hop | h_10 hop | h_11 hop =>
      exact encodesTo_of_noImm h hop ⟨0, input, rfl, .inr rfl, .inl rfl⟩
    case h_7 hop =>
      exact encodesTo_of_noImm h hop
        ⟨operand, [], congrArg (Request.command _ · []) (driveWord_fields operand), .inl rfl, .inr rfl⟩
    case h_8 hop | h_18 hop => exact encodesTo_of_noImm h hop ⟨0, [], rfl, .inr rfl, .inr rfl⟩
    case h_20 => cases h

/-! ### The flags byte bit by bit (R45) -/

theorem getLsbD_toNat {w : Nat} (x : BitVec w) (k : Nat) : (x.getLsbD k).toNat = x.toNat / 2 ^ k % 2 :=
  Nat.toNat_testBit x.toNat k

theorem flagsByte_toNat (d r z a : Bool) :
    (flagsByte d r z a).toNat = d.toNat + 2 * r.toNat + 4 * z.toNat + 8 * a.toNat := by
  cases d <;> cases r <;> cases z <;> cases a <;> rfl

/-- The low four bits of a byte, in terms of the flags read from it. -/
theorem flagBits_toNat (b : Byte) :
    (driveBit b).toNat + 2 * (respBit b).toNat + 4 * (sleepBit b).toNat + 8 * (ackBit b).toNat = b.toNat % 16 := by
  simp only [driveBit, respBit, sleepBit, ackBit, getLsbD_toNat]
  omega

/-- The flags byte of the flags read from a byte is that byte with its reserved bits cleared. -/
theorem flagsByte_of_bits (b : Byte) : flagsByte (driveBit b) (respBit b) (sleepBit b) (ackBit b) = b &&& 0x0F#8 := by
  apply BitVec.eq_of_toNat_eq
  rw [flagsByte_toNat, flagBits_toNat, BitVec.toNat_and]
  exact (Nat.and_two_pow_sub_one_eq_mod b.toNat 4).symm

theorem commandBits_toNat (b : Byte) : (b &&& 0x07#8).toNat = b.toNat % 8 := Nat.and_two_pow_sub_one_eq_mod b.toNat 3

/-- Bits 2:0 alone: the flags byte without its ack. -/
theorem flagsByte_of_commandBits (b : Byte) :
    flagsByte (driveBit b) (respBit b) (sleepBit b) false = b &&& 0x07#8 := by
  apply BitVec.eq_of_toNat_eq
  have hbits := flagBits_toNat b
  have hack := Bool.toNat_le (ackBit b)
  have hd := Bool.toNat_le (driveBit b)
  have hr := Bool.toNat_le (respBit b)
  have hz := Bool.toNat_le (sleepBit b)
  rw [flagsByte_toNat, commandBits_toNat, Bool.toNat_false]
  omega

/-- Settles O6. -/
theorem flagsByteBothWays : Obligations.FlagsByteBothWays := by
  refine ⟨fun d r z a => ⟨flagsByte_toNat d r z a, ?_⟩, flagsByte_of_bits⟩
  cases d <;> cases r <;> cases z <;> cases a <;> rfl

/-! ### The kind of a flags byte (R52, R81) -/

/-- The kind that a flags byte selects, as GETCMD reads it. -/
def byteKind (b : Byte) : Option CommandKind := kindOf (driveBit b) (respBit b) (sleepBit b)

/-- A byte selects a kind exactly when bits 2:0 are the kind's. -/
theorem byteKind_eq_some_iff {b : Byte} {kind : CommandKind} :
    byteKind b = some kind ↔ b.toNat % 8 = kind.flagBits.toNat := by
  rw [← commandBits_toNat, ← flagsByte_of_commandBits, byteKind]
  cases driveBit b <;> cases respBit b <;> cases sleepBit b <;> cases kind <;> decide

/-- The decoder reads the FRAME row of the byte's kind. -/
theorem decodeFlagsByte_eq (b : Byte) :
    decodeFlagsByte b =
      (byteKind b).elim (.error .malformedFlags) fun kind => .ok (frameInstr kind (ackBit b) (b.extractLsb' 4 4)) := by
  have hlow : (b.extractLsb' 0 3).toNat = (flagsByte (driveBit b) (respBit b) (sleepBit b) false).toNat := by
    rw [flagsByte_of_commandBits, commandBits_toNat, BitVec.extractLsb'_toNat, Nat.shiftRight_zero]
  simp only [decodeFlagsByte, hlow, byteKind]
  cases driveBit b <;> cases respBit b <;> cases sleepBit b <;> rfl

theorem encode_frameInstr (kind : CommandKind) (ack : Bool) (reserved : BitVec 4) :
    encode (frameInstr kind ack reserved) = .flagsByte (frameFlags kind ack reserved) := by cases kind <;> rfl

theorem frameFlags_toNat (kind : CommandKind) (ack : Bool) (reserved : BitVec 4) :
    (frameFlags kind ack reserved).toNat = 16 * reserved.toNat + 8 * ack.toNat + kind.flagBits.toNat := by
  have h : (frameFlags kind ack reserved).toNat =
      (reserved.toNat * 2 ^ 1 + ack.toNat) * 2 ^ 3 + kind.flagBits.toNat := by
    unfold frameFlags
    rw [append_toNat, append_toNat, BitVec.toNat_ofBool]
  rw [h]
  omega

theorem byteKind_frameFlags (kind : CommandKind) (ack : Bool) (reserved : BitVec 4) :
    byteKind (frameFlags kind ack reserved) = some kind := by
  rw [byteKind_eq_some_iff, frameFlags_toNat]
  have := kind.flagBits.isLt
  omega

/-- A byte is the flags byte of its kind, its ack and its reserved bits. -/
theorem frameFlags_of_byteKind {b : Byte} {kind : CommandKind} (h : byteKind b = some kind) :
    frameFlags kind (ackBit b) (b.extractLsb' 4 4) = b := by
  have hlow := byteKind_eq_some_iff.mp h
  apply BitVec.eq_of_toNat_eq
  rw [frameFlags_toNat, ← hlow, ackBit, getLsbD_toNat, BitVec.extractLsb'_toNat, Nat.shiftRight_eq_div_pow]
  have := b.isLt
  omega

/-- What a flags byte decodes to encodes to that byte. -/
theorem encode_of_decodeFlagsByte {b : Byte} {i : Instr} (h : decodeFlagsByte b = .ok i) : encode i = .flagsByte b := by
  rw [decodeFlagsByte_eq] at h
  cases hkind : byteKind b with
  | none => rw [hkind] at h; cases h
  | some kind =>
    rw [hkind] at h
    obtain rfl := Except.ok.inj h
    rw [encode_frameInstr, frameFlags_of_byteKind hkind]

/-- Settles O2. -/
theorem encodeOfDecodeIsTheWord : Obligations.EncodeOfDecodeIsTheWord :=
  ⟨fun _ _ _ _ h => encodesTo_of_decodeCommand h, fun _ _ h => encode_of_decodeFlagsByte h⟩

/-! ### The operation table (R56) -/

theorem matchesTable_commandWord (op : BitVec 8) (bk : Bool) (imm : Half) :
    MatchesOperationTable (commandWord op bk imm) ↔ RowAllows op.toNat bk.toNat imm.toNat := by
  rw [MatchesOperationTable, ← zeroField_toNat, ← opField_toNat, ← bankField_toNat, ← immField_toNat]
  simp

/-- The word of an instruction stands in the table. -/
theorem matchesTable_of_encode {i : Instr} {w operand : Word} {input : List Byte} (h : encode i = .command w operand input) :
    MatchesOperationTable w := by
  cases i with
  | frameDrive _ _ | frameResponse _ _ | frameSleep _ _ => cases h
  | setcmd kind =>
    obtain ⟨rfl, -, -⟩ := Request.command.inj h
    rw [matchesTable_commandWord]
    cases kind <;> simp [RowAllows, CommandKind.code]
  | setack v =>
    obtain ⟨rfl, -, -⟩ := Request.command.inj h
    rw [matchesTable_commandWord]
    cases v <;> simp [RowAllows]
  | _ =>
    obtain ⟨rfl, -, -⟩ := Request.command.inj h
    simp [matchesTable_commandWord, RowAllows]

theorem encodes_of_op {op : BitVec 8} {k : Nat} (hop : op.toNat = k) (bk : Bool) (imm : Half) :
    plainCommand (BitVec.ofNat 8 k) bk imm = .command (commandWord op bk imm) 0 [] := by
  rw [← eq_ofNat_of_toNat hop, plainCommand]

/-- Every word of the table is the word of an instruction: with operand word 0 and no bytes beside it, of this one. -/
theorem exists_encode_of_matchesTable {w : Word} (h : MatchesOperationTable w) : ∃ i, encode i = .command w 0 [] := by
  have hzero : zeroField w = 0 := BitVec.eq_of_toNat_eq ((zeroField_toNat w).trans h.1)
  rw [← commandWord_fields w hzero] at h ⊢
  rw [matchesTable_commandWord] at h
  generalize opField w = op, bankField w = bk, immField w = imm at h ⊢
  simp only [RowAllows, List.mem_cons, List.not_mem_nil, or_false, Bool.toNat_eq_zero, Bool.toNat_eq_one] at h
  rcases h with ⟨hop, himm⟩ | ⟨hop, rfl⟩ | ⟨hop, rfl, himm⟩ | ⟨hop, rfl, himm⟩ | ⟨hop, rfl, himm⟩ | ⟨hop, rfl, himm⟩
  · obtain rfl := eq_ofNat_of_toNat himm
    obtain ⟨b, rfl⟩ : ∃ b : BankId, b.bit = bk := ⟨_, BankId.bit_ofBit bk⟩
    rcases hop with hop | hop | hop | hop | hop | hop | hop | hop
    exacts [⟨.new b, encodes_of_op hop _ _⟩, ⟨.getseq b, encodes_of_op hop _ _⟩, ⟨.getcmd b, encodes_of_op hop _ _⟩,
      ⟨.getack b, encodes_of_op hop _ _⟩, ⟨.getbody b, encodes_of_op hop _ _⟩, ⟨.getlen b, encodes_of_op hop _ _⟩,
      ⟨.getcrc b, encodes_of_op hop _ _⟩, ⟨.unpackdrive b, encodes_of_op hop _ _⟩]
  · rcases hop with hop | hop
    exacts [⟨.setseq imm, encodes_of_op hop _ _⟩, ⟨.setlen imm, encodes_of_op hop _ _⟩]
  · obtain ⟨kind, hkind⟩ : ∃ kind : CommandKind, imm.toNat = kind.code := by
      rcases (by omega : imm.toNat = 0 ∨ imm.toNat = 1 ∨ imm.toNat = 2) with h | h | h
      exacts [⟨.drive, h⟩, ⟨.sleep, h⟩, ⟨.response, h⟩]
    obtain rfl := eq_ofNat_of_toNat hkind
    exact ⟨.setcmd kind, encodes_of_op hop _ _⟩
  · obtain ⟨v, hv⟩ : ∃ v : Bool, imm.toNat = v.toNat := by
      rcases (by omega : imm.toNat = 0 ∨ imm.toNat = 1) with h | h
      exacts [⟨false, h⟩, ⟨true, h⟩]
    obtain rfl := eq_ofNat_of_toNat hv
    exact ⟨.setack v, encodes_of_op hop _ _⟩
  · obtain rfl := eq_ofNat_of_toNat himm
    rcases hop with hop | hop | hop | hop | hop
    exacts [⟨.setbody [], encodes_of_op hop _ _⟩, ⟨.packdrive 0 0 0, encodes_of_op hop _ _⟩, ⟨.encode, encodes_of_op hop _ _⟩,
      ⟨.cksum [], encodes_of_op hop _ _⟩, ⟨.verify [], encodes_of_op hop _ _⟩]
  · obtain rfl := eq_ofNat_of_toNat himm
    rcases hop with hop | hop
    exacts [⟨.decode [], encodes_of_op hop _ _⟩, ⟨.getstatus, encodes_of_op hop _ _⟩]

theorem eitherBank_ne_malformedFlags (bk : Bool) (imm : Half) (row : BankId → Instr) :
    eitherBank bk imm row ≠ .error .malformedFlags := by
  unfold eitherBank
  split <;> simp

theorem fixedBank_ne_malformedFlags (want bk : Bool) {e : Except DecodeError Instr} (he : e ≠ .error .malformedFlags) :
    fixedBank want bk e ≠ .error .malformedFlags := by
  unfold fixedBank
  split
  · exact he
  · simp

theorem noImm_ne_malformedFlags (imm : Half) (i : Instr) : noImm imm i ≠ .error .malformedFlags := by
  unfold noImm
  split <;> simp

theorem decodeKind_ne_malformedFlags (imm : Half) : decodeKind imm ≠ .error .malformedFlags := by
  unfold decodeKind
  split <;> simp

theorem decodeAck_ne_malformedFlags (imm : Half) : decodeAck imm ≠ .error .malformedFlags := by
  unfold decodeAck
  split <;> simp

/-- A command word's defects are all of the kind that is refused (R56), never the flags byte's error (R52). -/
theorem decodeCommand_ne_malformedFlags (w operand : Word) (input : List Byte) :
    decodeCommand w operand input ≠ .error .malformedFlags := by
  unfold decodeCommand
  split
  case isTrue => simp
  case isFalse =>
    dsimp only
    split
    case h_1 | h_12 | h_13 | h_14 | h_15 | h_16 | h_17 | h_19 => exact eitherBank_ne_malformedFlags _ _ _
    case h_2 | h_6 => exact fixedBank_ne_malformedFlags _ _ (by simp)
    case h_3 => exact fixedBank_ne_malformedFlags _ _ (decodeKind_ne_malformedFlags _)
    case h_4 => exact fixedBank_ne_malformedFlags _ _ (decodeAck_ne_malformedFlags _)
    case h_5 | h_7 | h_8 | h_9 | h_10 | h_11 | h_18 => exact fixedBank_ne_malformedFlags _ _ (noImm_ne_malformedFlags _ _)
    case h_20 => simp

theorem isRefused_undecoded {e : DecodeError} (h : e ≠ .malformedFlags) (s : State) : isRefused (undecoded e s) = true := by
  cases e with
  | malformedFlags => exact absurd rfl h
  | _ => rfl

/-- A step refuses a command word outside the table, whatever accompanies it (60_exceptions.md R101). -/
theorem step_refuses_of_not_matchesTable {w operand : Word} {input : List Byte} {s : State} {rest : List Request}
    (hqueue : s.requests = .command w operand input :: rest) (hw : ¬ MatchesOperationTable w) :
    isRefused (step s) = true := by
  rw [step, stepWith, hqueue]
  cases hd : decodeCommand w operand input with
  | ok i =>
    obtain ⟨_, _, hi, -⟩ := encodesTo_of_decodeCommand hd
    exact absurd (matchesTable_of_encode hi) hw
  | error e =>
    have he : e ≠ .malformedFlags := fun h => decodeCommand_ne_malformedFlags w operand input (h ▸ hd)
    simp only [decode, hd]
    exact isRefused_undecoded he _

/-- Settles O3: the rows are the encodings of their instructions, and a word of the table is the encoding of one.
What decodes is such an encoding, so every other word is refused. -/
theorem commandWordsOfTheOperationTable : Obligations.CommandWordsOfTheOperationTable :=
  ⟨⟨decode_encode (.new .tx), decode_encode (.new .rx)⟩, fun n => decode_encode (.setseq n),
    ⟨decode_encode (.setcmd .drive), decode_encode (.setcmd .sleep), decode_encode (.setcmd .response)⟩,
    ⟨decode_encode (.setack false), decode_encode (.setack true)⟩, fun input => decode_encode (.setbody input),
    fun n => decode_encode (.setlen n), fun operand => rfl, decode_encode .encode,
    fun input => decode_encode (.decode input), fun input => decode_encode (.cksum input),
    fun input => decode_encode (.verify input), ⟨decode_encode (.getseq .tx), decode_encode (.getseq .rx)⟩,
    ⟨decode_encode (.getcmd .tx), decode_encode (.getcmd .rx)⟩, ⟨decode_encode (.getack .tx), decode_encode (.getack .rx)⟩,
    ⟨decode_encode (.getbody .tx), decode_encode (.getbody .rx)⟩, ⟨decode_encode (.getlen .tx), decode_encode (.getlen .rx)⟩,
    ⟨decode_encode (.getcrc .tx), decode_encode (.getcrc .rx)⟩, decode_encode .getstatus,
    ⟨decode_encode (.unpackdrive .tx), decode_encode (.unpackdrive .rx)⟩,
    fun w hw => by
      obtain ⟨i, hi⟩ := exists_encode_of_matchesTable hw
      exact ⟨i, hi ▸ decode_encode i⟩,
    fun _ _ _ _ _ hqueue hw => step_refuses_of_not_matchesTable hqueue hw⟩

theorem decodeTableWord_of_encode {nbits w : Nat} {i : Instr} (h : tableRequest nbits w = encode i) :
    decodeTableWord nbits w = some i := by
  rw [decodeTableWord, h, decode_encode]
  rfl

/-- Settles O4: six of the words are the encodings of their instructions; 0x07 is no operation code. -/
theorem sampleTableWordsDecode : Obligations.SampleTableWordsDecode :=
  ⟨decodeTableWord_of_encode (by decide), decodeTableWord_of_encode (by decide), decodeTableWord_of_encode (by decide),
    decodeTableWord_of_encode (by decide), decodeTableWord_of_encode (by decide), decodeTableWord_of_encode (by decide),
    by decide⟩

/-! ### A flags byte as a request (R52, R81; log entry 6) -/

/-- The FRAME rows answer their kind and nothing else happens. -/
theorem exec_frameInstr (kind : CommandKind) (ack : Bool) (reserved : BitVec 4) (s : State) :
    exec (frameInstr kind ack reserved) s = answer (.kind kind) s := by
  have hexec : exec (frameInstr kind ack reserved) s = answerKind (byteKind (frameFlags kind ack reserved)) s := by
    cases kind <;> rfl
  rw [hexec, byteKind_frameFlags]
  rfl

/-- Settles O39. -/
theorem frameKindsAnswerTheirKind : Obligations.FrameKindsAnswerTheirKind := fun ack reserved s =>
  ⟨exec_frameInstr .drive ack reserved s, exec_frameInstr .response ack reserved s, exec_frameInstr .sleep ack reserved s⟩

/-- The step answers a flags byte as GETCMD answers a bank with its command flags. -/
theorem step_flagsByte {b : Byte} {s : State} {rest : List Request} (hqueue : s.requests = .flagsByte b :: rest) :
    step s = answerKind (byteKind b) { s with requests := rest } := by
  rw [step, stepWith, hqueue]
  simp only [decode, decodeFlagsByte_eq]
  cases byteKind b with
  | none => rfl
  | some kind => exact exec_frameInstr kind _ _ _

/-- Settles O40: the three one-hot values of bits 2:0 are the flag bits of the three kinds. -/
theorem flagsByteSelectsTheKind : Obligations.FlagsByteSelectsTheKind := by
  intro b s rest hqueue
  rw [step_flagsByte hqueue, ← flagsByte_of_commandBits, byteKind]
  cases driveBit b <;> cases respBit b <;> cases sleepBit b <;> rfl

/-- Settles O41: DECODE stores the command flags of byte 2 in `RX`, where GETCMD RX reads them. -/
theorem flagsByteAgreesWithDecodeThenGetcmd : Obligations.FlagsByteAgreesWithDecodeThenGetcmd := by
  intro input s t h hvalid
  obtain ⟨-, rfl⟩ | ⟨f, hf, rfl⟩ := (decodeWith_next _ input s t).mp h
  · exact absurd hvalid (by simp)
  · obtain ⟨b0, b1, fl, l0, l1, body, c, rfl, -, -, rfl⟩ := (parseFrame_eq_some_iff _ _ _).mp hf
    exact ⟨fl, rfl, fun rest => step_flagsByte rfl⟩

/-! ### Pseudo-operations (R59) -/

/-- The packet with this sequence number, one command flag, no ack and this body. -/
def packet (n : Half) (kind : CommandKind) (body : List Byte) : Bank :=
  (setTx (.setcmd kind) (Bank.empty.withSeq n)).loadBody body

/-- The bytes of its frame ahead of the checksum (R43). -/
def packetBytes (n : Half) (kind : CommandKind) (body : List Byte) : List Byte := (packet n kind body).header ++ body

/-- From this state the script runs to its end and leaves that packet in `TX`. -/
def Builds (is : List Instr) (s : State) (n : Half) (kind : CommandKind) (body : List Byte) : Prop :=
  ∃ t, execAll is s = .next t ∧ t.tx = packet n kind body

theorem drivepkt_builds (n : Half) (d u : Byte) (v : Half) (s : State) :
    Builds (drivepkt n d u v) s n .drive (driveBody d u v) := ⟨_, rfl, rfl⟩

theorem sleeppkt_builds (n : Half) (s : State) : Builds (sleeppkt n) s n .sleep [] := ⟨_, rfl, rfl⟩

theorem resppkt_builds (n : Half) {body : List Byte} (h : body.length ≤ Config.bodyCap) (s : State) :
    Builds (resppkt n body) s n .response body := by
  obtain ⟨t, hrun, htx⟩ : ∃ t, execAll (resppkt n body) s = execAll [.setbody body] t ∧
      t.tx = setTx (.setcmd .response) (Bank.empty.withSeq n) := ⟨_, rfl, rfl⟩
  have hbody : exec (.setbody body) t = answer .nothing (t.withTx (t.tx.loadBody body)) := if_neg (Nat.not_lt.mpr h)
  refine ⟨(t.withTx (t.tx.loadBody body)).respond ⟨.ok, .nothing⟩, ?_, congrArg (·.loadBody body) htx⟩
  rw [hrun, execAll, hbody]
  rfl

/-! The fields of the packet and its bytes. -/

/-- `LEN` of the packet: the whole frame, as a 16-bit field (R16, R46). -/
def packetLength (body : List Byte) : Half := BitVec.ofNat 16 (6 + body.length)

theorem packet_len (n : Half) (kind : CommandKind) (body : List Byte) : (packet n kind body).len = packetLength body := by
  rw [packet, Bank.loadBody_len, frameLength_eq, packetLength]

theorem packetLength_toNat {body : List Byte} (h : body.length ≤ Config.bodyCap) :
    (packetLength body).toNat = 6 + body.length := by
  have := Config.bodyCap_range
  rw [packetLength, BitVec.toNat_ofNat]
  omega

theorem packet_holdsBody (n : Half) (kind : CommandKind) {body : List Byte} (h : body.length ≤ Config.bodyCap) :
    HoldsBody (packet n kind body) body := by
  have := Config.bodyCap_range
  exact holdsBody_loadBody _ _ (by omega)

/-- The packet's bytes one by one; `length` counts the whole frame (R43, R46). -/
theorem packetBytes_eq (n : Half) (kind : CommandKind) (body : List Byte) :
    packetBytes n kind body = [n.extractLsb' 0 8, n.extractLsb' 8 8, kind.flagBits.setWidth 8,
      (packetLength body).extractLsb' 0 8, (packetLength body).extractLsb' 8 8] ++ body := by
  rw [packetBytes, Bank.header, headerBytes_eq, packet_len]
  cases kind <;> rfl

theorem packetBytes_drive (n : Half) (d u : Byte) (v : Half) :
    packetBytes n .drive (driveBody d u v) =
      [n.extractLsb' 0 8, n.extractLsb' 8 8, 0x01, 0x0A, 0x00, d, u, v.extractLsb' 0 8, v.extractLsb' 8 8] := by
  have hlen : packetLength (driveBody d u v) = 10 := rfl
  rw [packetBytes_eq, hlen]
  rfl

/-- ENCODE emits the packet's bytes and their checksum (41_encode.md R67). -/
theorem encode_packet {t : State} {n : Half} {kind : CommandKind} {body : List Byte} (htx : t.tx = packet n kind body)
    (h : body.length ≤ Config.bodyCap) :
    ∃ t', exec .encode t = .next t' ∧ t'.responses =
      t.responses ++ [⟨.ok, .bytes (packetBytes n kind body ++ [cksum (packetBytes n kind body)])⟩] := by
  have hbody := packet_holdsBody n kind h
  have hlen : (packet n kind body).len.toNat = 6 + (packet n kind body).blen.toNat := by
    rw [packet_len, packetLength_toNat h, hbody.1]
  rw [← htx] at hlen hbody
  exact ⟨_, (execEncode_next t _).mpr (.inr ⟨hlen, body, hbody, rfl⟩), by simp only [packetBytes, htx]⟩

/-- A script that builds a packet leaves its fields in `TX`, and ENCODE then answers its bytes with their checksum. -/
theorem frame_of_builds {is : List Instr} {s : State} {n : Half} {kind : CommandKind} {body bytes : List Byte}
    (hbuilds : Builds is s n kind body) (h : body.length ≤ Config.bodyCap) (hbytes : packetBytes n kind body = bytes) :
    ∃ t t' c, execAll is s = .next t ∧ t.tx.seq = n ∧ t.tx.drive = decide (kind = .drive) ∧
      t.tx.resp = decide (kind = .response) ∧ t.tx.sleep = decide (kind = .sleep) ∧ t.tx.ack = false ∧
      HoldsBody t.tx body ∧ exec .encode t = .next t' ∧
      t'.responses = t.responses ++ [⟨.ok, .bytes (bytes ++ [c])⟩] ∧ c = cksum bytes := by
  subst hbytes
  obtain ⟨t, hrun, htx⟩ := hbuilds
  obtain ⟨t', hencode, hanswer⟩ := encode_packet htx h
  refine ⟨t, t', _, hrun, ?_, ?_, ?_, ?_, ?_, ?_, hencode, hanswer, rfl⟩ <;> rw [htx]
  exacts [rfl, rfl, rfl, rfl, rfl, packet_holdsBody n kind h]

/-- Settles O38. -/
theorem pseudoOperationsBuildTheirPackets : Obligations.PseudoOperationsBuildTheirPackets := by
  intro n s
  refine ⟨fun d u v => ⟨rfl, ?drive⟩, ⟨rfl, ?sleep⟩, fun body => ⟨rfl, fun hfit => ?resp⟩⟩
  case drive => exact frame_of_builds (drivepkt_builds n d u v s) Config.bodyCap_range.1 (packetBytes_drive n d u v)
  case sleep => exact frame_of_builds (sleeppkt_builds n s) (Nat.zero_le _) (packetBytes_eq n .sleep [])
  case resp =>
    obtain ⟨t, t', c, hrun, hseq, hdrive, hresp, hsleep, hack, hbody, hframe⟩ :=
      frame_of_builds (resppkt_builds n hfit s) hfit (packetBytes_eq n .response body)
    have hlength : ((packetLength body).extractLsb' 0 8).toNat + 256 * ((packetLength body).extractLsb' 8 8).toNat =
        6 + body.length := by
      rw [low_byte_toNat, high_byte_toNat, ← packetLength_toNat hfit]
      omega
    exact ⟨t, t', _, _, c, hrun, hseq, hdrive, hresp, hsleep, hack, hbody, hlength, hframe⟩

end Sys2Proof.Encodings
end

section
/-!
PROOFS. Packet construction (40_construct.md): NEW and the setters of `TX`, each with its exact effect, the immediates that are
refused, and what the next GETCMD, GETBODY or ENCODE answers.
-/

namespace Sys2Proof.Construct

open Sys2Proof.Machine Sys2Proof.Safety Sys2Proof.Family Sys2Proof.Invariant Sys2Proof.Encodings

/-! ### Setters, alone and at the head of a script -/

/-- The state a setter leaves: `TX` updated, and the response `(OK, nothing)`. -/
def afterSetter (i : Instr) (s : State) : State := (s.withTx (setTx i s.tx)).respond ⟨.ok, .nothing⟩

@[simp] theorem afterSetter_tx (i : Instr) (s : State) : (afterSetter i s).tx = setTx i s.tx := rfl

theorem exec_setter {i : Instr} (hi : isSetter i = true) (hfit : ∀ input, i = .setbody input → input.length ≤ Config.bodyCap)
    (s : State) : exec i s = .next (afterSetter i s) := by
  rw [exec_eq_execOn]
  exact execOn_setter hi hfit s

theorem execAll_cons_of_next {i : Instr} {s t : State} (h : exec i s = .next t) (is : List Instr) :
    execAll (i :: is) s = execAll is t := by
  rw [execAll, h]

theorem execAll_singleton_of_next {i : Instr} {s t : State} (h : exec i s = .next t) : execAll [i] s = .next t :=
  execAll_cons_of_next h []

theorem exec_setcmd (kind : CommandKind) (s : State) : exec (.setcmd kind) s = .next (afterSetter (.setcmd kind) s) :=
  exec_setter (i := .setcmd kind) rfl nofun s

theorem exec_setlen (n : Half) (s : State) : exec (.setlen n) s = .next (afterSetter (.setlen n) s) :=
  exec_setter (i := .setlen n) rfl nofun s

theorem exec_setbody {input : List Byte} (hfit : input.length ≤ Config.bodyCap) (s : State) :
    exec (.setbody input) s = .next (afterSetter (.setbody input) s) :=
  exec_setter rfl (fun _ h => Instr.setbody.inj h ▸ hfit) s

/-! ### NEW (R61) -/

theorem holdsBody_empty : HoldsBody Bank.empty [] := ⟨rfl, fun i hi => absurd hi (Nat.not_lt_zero i)⟩

theorem header_empty : Bank.empty.header = [0x00, 0x00, 0x00, 0x06, 0x00] := rfl

/-- The length byte 0x06 has the frame's only two bits. -/
theorem cksum_header_empty : cksum (Bank.empty.header ++ []) = 0x02 := by decide

/-- ENCODE of the empty packet emits the shortest frame. -/
theorem exec_encode_empty {s : State} (htx : s.tx = Bank.empty) :
    exec .encode s = .next { s with
      tx := { s.tx with crc := 0x02 },
      responses := s.responses ++ [⟨.ok, .bytes [0x00, 0x00, 0x00, 0x06, 0x00, 0x02]⟩] } := by
  refine (execEncode_next s _).mpr (.inr ⟨?len, [], ?body, ?state⟩)
  case len => rw [htx]; exact lenCounts_empty
  case body => rw [htx]; exact holdsBody_empty
  case state => rw [htx, cksum_header_empty, header_empty]; rfl

/-- The empty packet has no command flag, so GETCMD finds no kind (44_access.md R81). -/
theorem exec_getcmd_empty {s : State} (htx : s.tx = Bank.empty) :
    exec (.getcmd .tx) s = .next { s with responses := s.responses ++ [⟨.malformedCommandFlags, .nothing⟩] } := by
  refine (answerKind_next _ s _).mpr (.inr ⟨?_, rfl⟩)
  rw [State.bank_tx, htx]
  rfl

/-- Settles O11. -/
theorem newMakesTheEmptyPacket : Obligations.NewMakesTheEmptyPacket :=
  ⟨⟨rfl, rfl⟩,
    fun s => ⟨(s.newBank .tx).respond ⟨.ok, .nothing⟩, rfl, rfl, rfl, rfl, rfl, rfl, rfl, rfl, rfl, rfl, rfl, rfl, rfl,
      exec_getcmd_empty rfl, exec_encode_empty rfl⟩,
    fun s => ⟨(s.newBank .rx).respond ⟨.ok, .nothing⟩, rfl, rfl, rfl, rfl, rfl, rfl, rfl, rfl, rfl, rfl, rfl, rfl, rfl⟩⟩

/-! ### SETSEQ (R62) -/

/-- Settles O12. -/
theorem setseqWritesOnlyTheSequence : Obligations.SetseqWritesOnlyTheSequence := fun n s =>
  ⟨congrArg (Request.command · 0 []) (commandWord_setseq n), exec_setter (i := .setseq n) rfl nofun s⟩

/-! ### SETCMD (R63) -/

/-- The flags SETCMD writes are those of its kind alone (R52). -/
theorem kindOf_decide (kind : CommandKind) :
    kindOf (decide (kind = .drive)) (decide (kind = .response)) (decide (kind = .sleep)) = some kind := by
  cases kind <;> rfl

/-- GETCMD right after SETCMD answers the kind, whatever was set before. -/
theorem exec_getcmd_afterSetcmd (kind : CommandKind) (s : State) :
    exec (.getcmd .tx) (afterSetter (.setcmd kind) s) = answer (.kind kind) (afterSetter (.setcmd kind) s) := by
  have hkind : kindOf (setTx (.setcmd kind) s.tx).drive (setTx (.setcmd kind) s.tx).resp (setTx (.setcmd kind) s.tx).sleep =
      some kind := kindOf_decide kind
  simp only [exec, execGetcmd, State.bank_tx, afterSetter_tx, hkind, answerKind]

/-- A kind code of 3 or above is in no row (R56). -/
theorem not_matchesTable_setcmd {imm : Half} (h : 3 ≤ imm.toNat) : ¬ MatchesOperationTable (0x0200#16 ++ imm) := by
  rw [← commandWord_setcmd, matchesTable_commandWord]
  simpa [RowAllows, Nat.lt_iff_add_one_le] using h

/-- Settles O13. -/
theorem setcmdSetsExactlyOneCommandFlag : Obligations.SetcmdSetsExactlyOneCommandFlag := by
  refine ⟨exec_setcmd, ⟨rfl, rfl, rfl⟩, fun k k' s => ?lastWins, fun imm operand input s rest himm hqueue => ?refused⟩
  case lastWins =>
    rw [execAll_cons_of_next (exec_setcmd k s), execAll_cons_of_next (exec_setcmd k' _),
      execAll_singleton_of_next (exec_getcmd_afterSetcmd k' _)]
    exact ⟨_, rfl, List.getLast?_concat, rfl, rfl, rfl⟩
  case refused => exact step_refuses_of_not_matchesTable hqueue (not_matchesTable_setcmd himm)

/-! ### SETACK (R64) -/

/-- An ack value of 2 or above is in no row (R56). -/
theorem not_matchesTable_setack {imm : Half} (h : 2 ≤ imm.toNat) : ¬ MatchesOperationTable (0x0300#16 ++ imm) := by
  rw [← commandWord_setack, matchesTable_commandWord]
  simpa [RowAllows, Nat.lt_iff_add_one_le] using h

/-- Settles O14. -/
theorem setackWritesOnlyTheAck : Obligations.SetackWritesOnlyTheAck :=
  ⟨fun v s => exec_setter (i := .setack v) rfl nofun s, ⟨rfl, rfl⟩, fun _ _ _ _ _ himm hqueue =>
    step_refuses_of_not_matchesTable hqueue (not_matchesTable_setack himm)⟩

/-! ### SETBODY (R65) -/

/-- GETBODY answers the body its bank holds (44_access.md R83). -/
theorem exec_getbody_of_holdsBody {b : BankId} {s : State} {body : List Byte} (h : HoldsBody (s.bank b) body) :
    exec (.getbody b) s = answer (.bytes body) s := by
  simp only [exec, execGetbody, (Bank.bodyBytes_eq_some_iff _ body).mpr h]

/-- Settles O15. A body that fits any legal capacity fits the default one, and its length with the 6 bytes around it fits the
16-bit `LEN`. -/
theorem setbodyLoadsTheBodyAndLength : Obligations.SetbodyLoadsTheBodyAndLength := by
  intro cap input s hcap
  refine ⟨rfl, fun hfit => ?fits, fun hlong => Scope.setbodyWith_of_cap_lt hlong s,
    fun hlong => Scope.setbodyWith_of_cap_lt hlong s⟩
  case fits =>
    have hmax : input.length ≤ 65529 := hfit.trans ((Config.legalBodyCap_iff cap).mp hcap).2
    have hholds : HoldsBody (s.tx.loadBody input) input := holdsBody_loadBody s.tx input (by omega)
    have hblen : (s.tx.loadBody input).blen.toNat = input.length := hholds.1.symm
    have hlen : (s.tx.loadBody input).len.toNat = 6 + input.length := hblen ▸ lenCounts_loadBody s.tx hmax
    refine ⟨afterSetter (.setbody input) s, execOn_setter rfl (fun _ h => Instr.setbody.inj h ▸ hfit) s,
      exec_setbody (Config.bodyCap_eq ▸ hmax) s, hblen, hlen, hholds.2, rfl, rfl, rfl, rfl, rfl, rfl, rfl, rfl, rfl, rfl,
      exec_getbody_of_holdsBody hholds⟩

/-! ### SETLEN (R66) -/

/-- ENCODE of a bank whose `LEN` does not count its body answers `InvalidHeaderLength` and writes nothing (41_encode.md R67). -/
theorem exec_encode_of_not_lenCounts {s : State} (h : ¬ LenCounts s.tx) :
    exec .encode s = .next (s.respond ⟨.invalidHeaderLength, .nothing⟩) :=
  (execEncode_next s _).mpr (.inl ⟨h, rfl⟩)

/-- NEW TX, PACKDRIVE and a SETBODY that fits complete with `LEN` counting the body, whatever `LEN` was (10_state.md R21). -/
theorem exec_makes_lenCounts {i : Instr} (hi : i = .new .tx ∨ (∃ d u v, i = .packdrive d u v) ∨
    ∃ input : List Byte, input.length ≤ Config.bodyCap ∧ i = .setbody input) (s : State) :
    ∃ t, exec i s = .next t ∧ LenCounts t.tx := by
  rcases hi with rfl | ⟨d, u, v, rfl⟩ | ⟨input, hfit, rfl⟩
  · exact ⟨_, rfl, lenCounts_empty⟩
  · exact ⟨_, rfl, lenCounts_loadBody s.tx (by simp)⟩
  · exact ⟨afterSetter (.setbody input) s, exec_setbody hfit s,
      lenCounts_loadBody s.tx (Config.bodyCap_eq ▸ hfit)⟩

/-- Settles O16. -/
theorem setlenWritesOnlyTheLength : Obligations.SetlenWritesOnlyTheLength := by
  intro n s
  refine ⟨congrArg (Request.command · 0 []) (commandWord_setlen n), exec_setlen n s, fun hn => ?broken, fun i hi => ?repaired⟩
  case broken =>
    rw [execAll_cons_of_next (exec_setlen n s),
      execAll_singleton_of_next (exec_encode_of_not_lenCounts (s := afterSetter (.setlen n) s) hn)]
    simp [afterSetter, setTx, State.withTx, State.respond, Bank.withLen]
  case repaired =>
    obtain ⟨t, hrun, hlen⟩ := exec_makes_lenCounts hi (afterSetter (.setlen n) s)
    exact ⟨t, (execAll_cons_of_next (exec_setlen n s) [i]).trans (execAll_singleton_of_next hrun), hlen⟩

end Sys2Proof.Construct
end

section
/-!
PROOFS. ENCODE (41_encode.md): the frame of a bank, byte by byte; what VERIFY says of it and what DECODE makes of it; and ENCODE
repeated.
-/

namespace Sys2Proof.Serialize

open Sys2Proof.Machine Sys2Proof.Safety Sys2Proof.Invariant Sys2Proof.Construct

/-! ### The frame of a bank (R67) -/

/-- The checksum ENCODE writes to `TX.CRC`. -/
def checksumOf (b : Bank) (body : List Byte) : Byte := cksum (b.header ++ body)

/-- The bytes ENCODE emits. -/
def frameOf (b : Bank) (body : List Byte) : List Byte := b.header ++ body ++ [checksumOf b body]

/-- The bank passes ENCODE's length check and holds this body. -/
structure Serializable (b : Bank) (body : List Byte) : Prop where
  lenCounts : LenCounts b
  holdsBody : HoldsBody b body

/-- The state after a frame was emitted: `TX.CRC` and one response are new. -/
def emit (s : State) (body : List Byte) : State :=
  (s.withTx (s.tx.withCrc (checksumOf s.tx body))).respond ⟨.ok, .bytes (frameOf s.tx body)⟩

theorem exec_encode_of_serializable {s : State} {body : List Byte} (h : Serializable s.tx body) :
    exec .encode s = .next (emit s body) :=
  (execEncode_next s _).mpr (.inr ⟨h.lenCounts, body, h.holdsBody, rfl⟩)

/-- ENCODE that completes has reported the length or emitted the frame. -/
theorem exec_encode_cases {s t : State} (h : exec .encode s = .next t) :
    (¬ LenCounts s.tx ∧ t = s.respond ⟨.invalidHeaderLength, .nothing⟩) ∨
      ∃ body, Serializable s.tx body ∧ t = emit s body := by
  rcases (execEncode_next s t).mp h with hbad | ⟨hlen, body, hbody, ht⟩
  · exact .inl hbad
  · exact .inr ⟨body, ⟨hlen, hbody⟩, ht⟩

/-- Only an emitted frame is answered with bytes. -/
theorem emitted_of_response {s t : State} {out : List Byte} (h : exec .encode s = .next t)
    (hout : t.responses = s.responses ++ [⟨.ok, .bytes out⟩]) :
    ∃ body, Serializable s.tx body ∧ t = emit s body ∧ out = frameOf s.tx body := by
  obtain ⟨-, rfl⟩ | ⟨body, hs, rfl⟩ := exec_encode_cases h
  · simp at hout
  · exact ⟨body, hs, rfl, by simpa [emit, eq_comm] using hout⟩

theorem header_eq (b : Bank) : b.header = [b.seq.extractLsb' 0 8, b.seq.extractLsb' 8 8,
    flagsByte b.drive b.resp b.sleep b.ack, b.len.extractLsb' 0 8, b.len.extractLsb' 8 8] := headerBytes_eq _ _ _

theorem frameOf_length (b : Bank) (body : List Byte) : (frameOf b body).length = 6 + body.length := by
  simp only [frameOf, header_eq, List.length_append, List.length_cons, List.length_nil]
  omega

/-- Settles O18. -/
theorem encodeSerializesTheBank : Obligations.EncodeSerializesTheBank := by
  refine ⟨rfl, fun s body hbody hlen => ?emits, fun s hlen => exec_encode_of_not_lenCounts hlen⟩
  case emits =>
    have hsum : (checksumOf s.tx body).toNat = ((s.tx.header ++ body).map popcount).sum % 256 := by
      rw [checksumOf, cksum_toNat, popcountSum_eq_sum_map]
    exact ⟨s.tx.header, _, checksumOf s.tx body, Encodings.flagsByte_toNat _ _ _ _, header_eq s.tx, hsum,
      exec_encode_of_serializable ⟨hlen, hbody⟩⟩

/-! ### ENCODE repeated (R67) -/

/-- The checksum is no part of what ENCODE checks or emits, so writing it changes neither. -/
theorem Serializable.withCrc {b : Bank} {body : List Byte} (h : Serializable b body) (c : Byte) :
    Serializable (b.withCrc c) body := ⟨h.lenCounts, h.holdsBody⟩

/-- A state that has emitted its frame emits it again, and only receives the response once more. -/
theorem exec_encode_emit {s : State} {body : List Byte} (h : Serializable s.tx body) :
    exec .encode (emit s body) = .next ((emit s body).respond ⟨.ok, .bytes (frameOf s.tx body)⟩) :=
  exec_encode_of_serializable (h.withCrc _)

/-- Settles O20. -/
theorem encodeIsRepeatable : Obligations.EncodeIsRepeatable := by
  intro s t h
  obtain ⟨hbad, rfl⟩ | ⟨body, hs, rfl⟩ := exec_encode_cases h
  · exact ⟨_, rfl, exec_encode_of_not_lenCounts hbad⟩
  · exact ⟨_, rfl, exec_encode_emit hs⟩

/-! ### What holds of an emitted frame (R69 b, c, d, f) -/

theorem verifyBytes_frameOf (b : Bank) (body : List Byte) : verifyBytes (frameOf b body) = true := by
  have hne : b.header ++ body ≠ [] := by simp [header_eq]
  rw [frameOf, verifyBytes_snoc _ _ hne, checksumOf, decide_eq_true rfl]

theorem frameOf_flags (b : Bank) (body : List Byte) :
    (frameOf b body)[2]? = some (flagsByte b.drive b.resp b.sleep b.ack) := rfl

theorem flagsByte_reserved (d r z a : Bool) : flagsByte d r z a &&& 0xF0#8 = 0 := by
  cases d <;> cases r <;> cases z <;> cases a <;> rfl

/-- Settles O19. -/
theorem emittedFramesVerify : Obligations.EmittedFramesVerify := by
  intro s t out h hout
  obtain ⟨body, hs, rfl, rfl⟩ := emitted_of_response h hout
  have hlength : (frameOf s.tx body).length = 6 + s.tx.blen.toNat := by rw [frameOf_length, hs.holdsBody.1]
  refine ⟨hlength.trans hs.lenCounts.symm, hlength, ⟨s.tx.header ++ body, rfl, rfl⟩, fun u => ?verify,
    ⟨_, frameOf_flags _ _, flagsByte_reserved _ _ _ _⟩, fun cap hcap => ?fits⟩
  case verify => exact (answer_next _ u _).mpr (by rw [verifyBytes_frameOf])
  case fits =>
    rw [Config.frameCapOf_eq]
    omega

/-! ### DECODE of an emitted frame (R69 e) -/

/-- What the frame of a bank carries. -/
def carried (b : Bank) (body : List Byte) : Frame where
  header := { seq := b.seq, flags := flagsByte b.drive b.resp b.sleep b.ack, length := b.len }
  body := body
  crc := checksumOf b body

/-- The deserializer reads back what the serializer laid out. -/
theorem parseFrame_frameOf {cap : Nat} {b : Bank} {body : List Byte} (h : Serializable b body) (hcap : body.length ≤ cap) :
    parseFrame cap (frameOf b body) = some (carried b body) := by
  have hcounts : (b.len.extractLsb' 0 8).toNat + 256 * (b.len.extractLsb' 8 8).toNat = 6 + body.length := by
    rw [← unle16_toNat, unle16_le16, h.lenCounts, h.holdsBody.1]
  refine (parseFrame_eq_some_iff cap _ _).mpr ⟨_, _, _, _, _, body, _, rfl, hcounts, hcap, ?fields⟩
  case fields => rw [unle16_le16, unle16_le16, carried]

theorem frameCrcErr_frameOf (b : Bank) (body : List Byte) : frameCrcErr (frameOf b body) (carried b body) = false := by
  rw [frameCrcErr, frameOf, List.dropLast_concat]
  exact decide_eq_false (not_not.mpr rfl)

theorem frameFlagErr_carried (b : Bank) (body : List Byte) :
    frameFlagErr (carried b body) = decide (commandCount b.drive b.resp b.sleep ≠ 1) := by
  simp only [frameFlagErr, carried, driveBit_flagsByte, respBit_flagsByte, sleepBit_flagsByte]

/-- DECODE of the frame commits what it carries and finds no wrong checksum, alike at every capacity the body fits. -/
theorem execOn_decode_frameOf {b : Bank} {body : List Byte} (h : Serializable b body) (u : State) :
    ∃ v, (∀ cap, body.length ≤ cap → execOn cap (.decode (frameOf b body)) u = .next v) ∧
      v.rx = u.rx.commit (carried b body) ∧ v.status = statusByte false (frameFlagErr (carried b body)) := by
  rw [← frameCrcErr_frameOf b body]
  exact ⟨_, fun cap hcap => (decodeWith_next cap _ u _).mpr (.inr ⟨_, parseFrame_frameOf h hcap, rfl⟩), rfl, rfl⟩

theorem withBody_eq (b : Bank) (v : List Byte) :
    b.withBody v = { b with blen := BitVec.ofNat 16 v.length, body := Memory.cells 0 v } := by
  rw [Bank.withBody, Memory.forgetFrom_write_zero]

/-- The commit makes the receiving bank the sender's after ENCODE, with the body in the buffer's canonical form. -/
theorem commit_carried {b : Bank} {body : List Byte} (h : HoldsBody b body) (old : Bank) :
    old.commit (carried b body) = { b.withCrc (checksumOf b body) with body := Memory.cells 0 body } := by
  have hblen : BitVec.ofNat 16 body.length = b.blen := by rw [h.1, BitVec.ofNat_toNat, BitVec.setWidth_eq]
  simp only [Bank.commit, carried, driveBit_flagsByte, respBit_flagsByte, sleepBit_flagsByte, ackBit_flagsByte, withBody_eq,
    hblen]
  rfl

theorem readByte_cells_of_holdsBody {b : Bank} {body : List Byte} (h : HoldsBody b body) {a : Nat} (ha : a < b.blen.toNat) :
    Memory.readByte (Memory.cells 0 body) a = Memory.readByte b.body a := by
  rw [Memory.readByte_cells, if_pos (Nat.zero_le a), Nat.sub_zero, h.2 a (h.1 ▸ ha)]

/-- The 16-bit `LEN` of a bank that ENCODE accepts bounds its body: every emitted frame fits the default capacity. -/
theorem Serializable.length_le {b : Bank} {body : List Byte} (h : Serializable b body) : body.length ≤ Config.bodyCap := by
  have hlen : b.len.toNat = 6 + body.length := h.lenCounts.trans (congrArg (6 + ·) h.holdsBody.1.symm)
  have := b.len.isLt
  rw [Config.bodyCap_eq]
  omega

/-- Settles O21. -/
theorem decodeOfEncodedFrameRestoresThePacket : Obligations.DecodeOfEncodedFrameRestoresThePacket := by
  intro cap s t u out _ h hout hfits
  obtain ⟨body, hs, rfl, rfl⟩ := emitted_of_response h hout
  have hcap : body.length ≤ cap := by
    rw [frameOf_length, Config.frameCapOf_eq] at hfits
    omega
  obtain ⟨v, hdecode, hrx, hstatus⟩ := execOn_decode_frameOf hs u
  rw [commit_carried hs.holdsBody] at hrx
  refine ⟨v, hdecode cap hcap, (exec_eq_execOn _ u).trans (hdecode _ hs.length_le), ?_⟩
  rw [hrx, hstatus]
  refine ⟨rfl, rfl, rfl, rfl, rfl, rfl, rfl, rfl, fun a ha => readByte_cells_of_holdsBody hs.holdsBody ha,
    statusValid_statusByte _ _, statusCrcErr_statusByte _ _, statusFrameErrBit_statusByte _ _, ?flagErr⟩
  case flagErr =>
    rw [statusFlagErr_statusByte, frameFlagErr_carried, decide_eq_false_iff_not, not_not]
    rfl

end Sys2Proof.Serialize
end

section
/-!
PROOFS. DECODE (42_decode.md): its outcome as a function of the received bytes, the packet of a frame that decoded `OK` encoded
again, and what flipped bits do to a frame.
-/

namespace Sys2Proof.Deserialize

open Sys2Proof.Machine Sys2Proof.Safety Sys2Proof.Family Sys2Proof.Invariant Sys2Proof.Encodings Sys2Proof.Serialize

/-! ### The outcome of DECODE is a function of the received bytes (R72, R73 a, b) -/

/-- What DECODE leaves behind: bank `RX`, `RX.STATUS` and the response. -/
structure Delivery where
  rx : Bank
  status : Byte
  response : Response

/-- The outcome for a byte sequence whose structural checks gave this (the table of R72). The new bank is a commit over the empty
packet, whatever `RX` held. -/
def delivery (input : List Byte) : Option Frame → Delivery
  | none => ⟨Bank.empty, statusFrameErr, ⟨.truncatedOrOversizedFrame, .nothing⟩⟩
  | some f => ⟨Bank.empty.commit f, statusByte (frameCrcErr input f) (frameFlagErr f),
      ⟨decodeCode (frameCrcErr input f) (frameFlagErr f),
        .record (recordOf (Bank.empty.commit f) f.body (statusByte (frameCrcErr input f) (frameFlagErr f)))⟩⟩

/-- The state with an outcome of DECODE in place. -/
def deliver (s : State) (d : Delivery) : State := ((s.withRx d.rx).withStatus d.status).respond d.response

theorem lastCode_deliver (s : State) (d : Delivery) : lastCode (deliver s d) = some d.response.code := by
  simp [lastCode, deliver]

theorem execOn_decode (cap : Nat) (input : List Byte) (s : State) :
    execOn cap (.decode input) s = .next (deliver s (delivery input (parseFrame cap input))) := by
  refine (decodeWith_next cap input s _).mpr ?_
  cases hp : parseFrame cap input with
  | none => exact .inl ⟨rfl, rfl⟩
  | some f => exact .inr ⟨f, rfl, by rw [Bank.commit_eq s.rx Bank.empty f]; rfl⟩

theorem exec_decode (input : List Byte) (s : State) :
    exec (.decode input) s = .next (deliver s (delivery input (parseFrame Config.bodyCap input))) :=
  (exec_eq_execOn _ s).trans (execOn_decode _ input s)

theorem execOn_decode_of_parseFrame {cap : Nat} {input : List Byte} {f : Frame} (h : parseFrame cap input = some f) (s : State) :
    execOn cap (.decode input) s = .next (deliver s (delivery input (some f))) := by
  rw [execOn_decode, h]

theorem exec_decode_of_parseFrame {input : List Byte} {f : Frame} (h : parseFrame Config.bodyCap input = some f) (s : State) :
    exec (.decode input) s = .next (deliver s (delivery input (some f))) :=
  (exec_eq_execOn _ s).trans (execOn_decode_of_parseFrame h s)

/-- Settles O24. -/
theorem decodeIsTotalAndForgetsTheOldPacket : Obligations.DecodeIsTotalAndForgetsTheOldPacket := fun input s s' =>
  ⟨_, _, _, exec_decode input s, exec_decode input s', rfl, rfl, rfl, rfl⟩

/-! ### A structurally good frame (R70) -/

theorem parseFrame_of_fields (b0 b1 fl l0 l1 c : Byte) {body : List Byte} {cap : Nat}
    (hlen : l0.toNat + 256 * l1.toNat = 6 + body.length) (hcap : body.length ≤ cap) :
    parseFrame cap ([b0, b1, fl, l0, l1] ++ body ++ [c]) = some ⟨⟨unle16 b0 b1, fl, unle16 l0 l1⟩, body, c⟩ :=
  (parseFrame_eq_some_iff cap _ _).mpr ⟨b0, b1, fl, l0, l1, body, c, rfl, hlen, hcap, rfl⟩

theorem frameCrcErr_concat (pre : List Byte) (f : Frame) :
    frameCrcErr (pre ++ [f.crc]) f = true ↔ (pre.map popcount).sum % 256 ≠ f.crc.toNat := by
  rw [frameCrcErr, List.dropLast_concat, decide_eq_true_iff, ← popcountSum_eq_sum_map, ← cksum_toNat, ne_eq, ne_eq,
    BitVec.toNat_inj]

/-- Settles O22. -/
theorem decodeDeliversTheFrame : Obligations.DecodeDeliversTheFrame := by
  intro cap b0 b1 fl l0 l1 c body s hlegal hlen hcap
  have hparse (k : Nat) := parseFrame_of_fields b0 b1 fl l0 l1 c (cap := k) hlen
  have hdefault : body.length ≤ Config.bodyCap := hcap.trans hlegal.2
  have hlength : (unle16 l0 l1).toNat = 6 + body.length := (unle16_toNat l0 l1).trans hlen
  refine ⟨_, _, _, frameCrcErr_concat ([b0, b1, fl, l0, l1] ++ body) ⟨⟨unle16 b0 b1, fl, unle16 l0 l1⟩, body, c⟩,
    decide_eq_true_iff, execOn_decode_of_parseFrame (hparse cap hcap) s, exec_decode_of_parseFrame (hparse _ hdefault) s,
    unle16_toNat b0 b1, rfl, rfl, rfl, rfl, unle16_toNat l0 l1, commit_blen_toNat Bank.empty hlength, rfl, fun a _ => ?body,
    statusByte_toNat _ _, rfl, rfl, rfl⟩
  case body =>
    show Memory.readByte (Bank.empty.commit _).body a = body[a]?
    rw [Bank.commit_body, Memory.readByte_cells, if_pos (Nat.zero_le a), Nat.sub_zero]

/-! ### A frame that decoded `OK` -/

/-- Check 5 of DECODE is VERIFY (R70). -/
theorem frameCrcErr_eq_not_verifyBytes {cap : Nat} {input : List Byte} {f : Frame} (h : parseFrame cap input = some f) :
    frameCrcErr input f = !verifyBytes input := by
  obtain ⟨b0, b1, fl, l0, l1, body, c, rfl, -, -, rfl⟩ := (parseFrame_eq_some_iff cap input f).mp h
  rw [verifyBytes_snoc _ c (by simp), frameCrcErr, List.dropLast_concat, decide_not]

theorem decodeCode_eq_ok_iff (crcErr flagErr : Bool) :
    decodeCode crcErr flagErr = .ok ↔ crcErr = false ∧ flagErr = false := by
  cases crcErr <;> cases flagErr <;> simp [decodeCode]

/-- The code `OK` says that every check passed and the packet was stored. -/
theorem stored_of_ok {frame : List Byte} {s t : State} (h : exec (.decode frame) s = .next t) (hok : lastCode t = some .ok) :
    ∃ f, parseFrame Config.bodyCap frame = some f ∧ verifyBytes frame = true ∧ t.rx = Bank.empty.commit f := by
  obtain rfl := Host.Outcome.next.inj ((exec_decode frame s).symm.trans h)
  rw [lastCode_deliver, Option.some.injEq] at hok
  cases hp : parseFrame Config.bodyCap frame with
  | none => rw [hp] at hok; cases hok
  | some f =>
    rw [hp] at hok
    have hcrc := ((decodeCode_eq_ok_iff _ _).mp hok).1
    rw [frameCrcErr_eq_not_verifyBytes hp, Bool.not_eq_false'] at hcrc
    exact ⟨f, rfl, hcrc, rfl⟩

/-! ### ENCODE of a decoded packet (R73 c) -/

/-- The bytes of a frame before its checksum. -/
def payload (f : Frame) : List Byte := headerBytes f.header.seq f.header.flags f.header.length ++ f.body

/-- A frame that passes the structural checks is the layout of what it carries. -/
theorem eq_payload_of_parseFrame {cap : Nat} {input : List Byte} {f : Frame} (h : parseFrame cap input = some f) :
    input = payload f ++ [f.crc] := by
  obtain ⟨b0, b1, fl, l0, l1, body, c, rfl, -, -, rfl⟩ := (parseFrame_eq_some_iff cap input f).mp h
  simp [payload, headerBytes]

/-- What a structurally good frame leaves in a bank can be encoded. -/
theorem serializable_commit {cap : Nat} {input : List Byte} {f : Frame} (h : parseFrame cap input = some f) (b : Bank) :
    Serializable (b.commit f) f.body := by
  have hlen := (parseFrame_bounds h).2
  have := f.header.length.isLt
  exact ⟨lenCounts_commit b hlen, holdsBody_withBody _ f.body (by omega)⟩

theorem header_withCrc (b : Bank) (c : Byte) : (b.withCrc c).header = b.header := rfl

/-- Decoding drops the reserved bits of the flags byte and keeps the rest of the header. -/
theorem header_commit (b : Bank) (f : Frame) :
    (b.commit f).header = headerBytes f.header.seq (f.header.flags &&& 0x0F#8) f.header.length := by
  rw [← flagsByte_of_bits]
  rfl

theorem header_append_commit (b : Bank) (f : Frame) :
    (b.commit f).header ++ f.body = (payload f).set 2 (f.header.flags &&& 0x0F#8) := by
  rw [header_commit]
  rfl

/-- The low nibble is the whole byte exactly when the high nibble is 0. -/
theorem and_lowNibble_eq_self_iff (b : Byte) : b &&& 0x0F#8 = b ↔ b &&& 0xF0#8 = 0 := by
  have hsplit : b &&& 0x0F#8 ||| b &&& 0xF0#8 = b := by
    rw [← BitVec.and_or_distrib_left, show 0x0F#8 ||| 0xF0#8 = BitVec.allOnes 8 from rfl, BitVec.and_allOnes]
  constructor
  · intro h
    rw [← h, BitVec.and_assoc]
    exact BitVec.and_zero
  · intro h
    rwa [h, show (0 : Byte) = 0#8 from rfl, BitVec.or_zero] at hsplit

theorem payload_set_flags_eq_iff (f : Frame) (b : Byte) : (payload f).set 2 b = payload f ↔ b = f.header.flags := by
  constructor
  · intro h
    exact Option.some.inj (congrArg (·[2]?) h)
  · rintro rfl
    rfl

/-- A sequence with its checksum is a verified frame exactly when it is the frame's payload. -/
theorem append_cksum_eq_iff {pre pre' : List Byte} {c : Byte} (hc : cksum pre = c) :
    pre' ++ [cksum pre'] = pre ++ [c] ↔ pre' = pre := by
  constructor
  · exact fun h => (List.append_inj' h rfl).1
  · rintro rfl
    rw [hc]

/-- Settles O25. -/
theorem encodeOfDecodedFrameGivesItBack : Obligations.EncodeOfDecodedFrameGivesItBack := by
  intro frame s t u crc b2 h hok hb2 hu
  obtain ⟨f, hp, hverified, hrx⟩ := stored_of_ok h hok
  obtain rfl := eq_payload_of_parseFrame hp
  obtain rfl : f.header.flags = b2 := Option.some.inj hb2
  have hc : cksum (payload f) = f.crc := by
    simpa [verifyBytes_snoc _ f.crc (show payload f ≠ [] by simp [payload, headerBytes])] using hverified
  have htx : u.tx = (Bank.empty.commit f).withCrc crc := by rw [hu, hrx]; rfl
  have hserial : Serializable u.tx f.body := htx ▸ (serializable_commit hp Bank.empty).withCrc crc
  have hout : u.tx.header ++ f.body = (payload f).set 2 (f.header.flags &&& 0x0F#8) := by
    rw [htx, header_withCrc, header_append_commit]
  refine ⟨_, _, exec_encode_of_serializable hserial, rfl, ?_⟩
  rw [frameOf, checksumOf, hout, List.dropLast_concat]
  refine ⟨rfl, ?_⟩
  rw [append_cksum_eq_iff hc, payload_set_flags_eq_iff, and_lowNibble_eq_self_iff]

/-! ### The structural checks see the length of a sequence and its bytes 3 and 4 (R70, R71) -/

theorem exists_fields_of_length {input : List Byte} (h : 6 ≤ input.length) :
    ∃ b0 b1 fl l0 l1 body c, input = [b0, b1, fl, l0, l1] ++ body ++ [c] := by
  match input, h with
  | b0 :: b1 :: fl :: l0 :: l1 :: x :: rest, _ =>
    exact ⟨b0, b1, fl, l0, l1, (x :: rest).dropLast, (x :: rest).getLast (by simp), by simp [List.dropLast_append_getLast]⟩
  | [], h | [_], h | [_, _], h | [_, _, _], h | [_, _, _, _], h | [_, _, _, _, _], h => simp at h

/-- The structural checks fail on exactly the causes of 60_exceptions.md R93. -/
theorem parseFrame_eq_none_iff (cap : Nat) (input : List Byte) :
    parseFrame cap input = none ↔ StructurallyBad cap input := by
  have hsize (b0 b1 fl l0 l1 c : Byte) (body : List Byte) :
      ([b0, b1, fl, l0, l1] ++ body ++ [c]).length = 6 + body.length := by simp; omega
  simp only [StructurallyBad, Config.minFrame_eq, Config.frameCapOf_eq]
  constructor
  · intro hnone
    by_contra hgood
    simp only [not_or] at hgood
    obtain ⟨hmin, hmax, hfield⟩ := hgood
    obtain ⟨b0, b1, fl, l0, l1, body, c, rfl⟩ := exists_fields_of_length (Nat.le_of_not_lt hmin)
    rw [hsize] at hmax hfield
    have hlen : l0.toNat + 256 * l1.toNat = 6 + body.length := by
      by_contra hne
      exact hfield ⟨l0, l1, rfl, rfl, .inr hne⟩
    rw [parseFrame_of_fields b0 b1 fl l0 l1 c hlen (by omega)] at hnone
    cases hnone
  · intro hbad
    cases hp : parseFrame cap input with
    | none => rfl
    | some f =>
      obtain ⟨b0, b1, fl, l0, l1, body, c, rfl, hlen, hcap, -⟩ := (parseFrame_eq_some_iff cap input f).mp hp
      rw [hsize] at hbad
      obtain hmin | hmax | ⟨m0, m1, hm0, hm1, hfield⟩ := hbad
      · omega
      · omega
      · obtain rfl : l0 = m0 := Option.some.inj hm0
        obtain rfl : l1 = m1 := Option.some.inj hm1
        omega

theorem structurallyBad_congr {cap : Nat} {input input' : List Byte} (hlength : input'.length = input.length)
    (h3 : input'[3]? = input[3]?) (h4 : input'[4]? = input[4]?) :
    StructurallyBad cap input' ↔ StructurallyBad cap input := by
  rw [StructurallyBad, StructurallyBad, hlength, h3, h4]

/-! ### One flipped bit -/

theorem flipBit_of_getElem? {bytes : List Byte} {k : Nat} {b : Byte} (h : bytes[k]? = some b) (j : Nat) :
    flipBit bytes k j = bytes.set k (b ^^^ BitVec.twoPow 8 j) := by
  simp [flipBit, h]

theorem bitAt_of_getElem? {bytes : List Byte} {k : Nat} {b : Byte} (h : bytes[k]? = some b) (j : Nat) :
    bitAt bytes k j = b.getLsbD j := by
  simp [bitAt, h]

@[simp] theorem flipBit_length (bytes : List Byte) (k j : Nat) : (flipBit bytes k j).length = bytes.length := by
  unfold flipBit
  split <;> simp

theorem flipBit_getElem?_of_ne {k a : Nat} (h : k ≠ a) (bytes : List Byte) (j : Nat) :
    (flipBit bytes k j)[a]? = bytes[a]? := by
  unfold flipBit
  split
  · exact List.getElem?_set_ne h
  · rfl

theorem flipBit_getElem?_self {bytes : List Byte} {k : Nat} {b : Byte} (h : bytes[k]? = some b) (j : Nat) :
    (flipBit bytes k j)[k]? = some (b ^^^ BitVec.twoPow 8 j) := by
  obtain ⟨hk, -⟩ := List.getElem?_eq_some_iff.mp h
  rw [flipBit_of_getElem? h, List.getElem?_set_self hk]

theorem getLsbD_xor_twoPow (b : Byte) {j : Nat} (hj : j < 8) (i : Nat) :
    (b ^^^ BitVec.twoPow 8 j).getLsbD i = (b.getLsbD i ^^ decide (i = j)) := by
  by_cases h : i = j
  · simp [h, hj]
  · simp [h, Ne.symm h]

theorem xor_twoPow_ne (b : Byte) {j : Nat} (hj : j < 8) : b ^^^ BitVec.twoPow 8 j ≠ b := by
  intro h
  have hbit := getLsbD_xor_twoPow b hj j
  rw [h] at hbit
  simp at hbit

/-- Bits other than the flipped one are kept, in the same byte too. -/
theorem bitAt_flipBit_of_ne {k k' j j' : Nat} (hne : ¬ (k = k' ∧ j = j')) (hj : j < 8) (bytes : List Byte) :
    bitAt (flipBit bytes k j) k' j' = bitAt bytes k' j' := by
  by_cases hk : k = k'
  · subst hk
    have hbit : j' ≠ j := fun h => hne ⟨rfl, h.symm⟩
    cases hb : bytes[k]? with
    | none => simp [flipBit, hb]
    | some b =>
      rw [bitAt_of_getElem? (flipBit_getElem?_self hb j), bitAt_of_getElem? hb, getLsbD_xor_twoPow b hj,
        decide_eq_false hbit, Bool.xor_false]
  · simp only [bitAt, flipBit_getElem?_of_ne hk]

/-- A flip exchanges one bit's share of the popcount. -/
theorem popcount_xor_twoPow (b : Byte) {j : Nat} (hj : j < 8) :
    popcount (b ^^^ BitVec.twoPow 8 j) + (b.getLsbD j).toNat = popcount b + (!b.getLsbD j).toNat := by
  simp only [popcount, getLsbD_xor_twoPow b hj]
  interval_cases j <;> simp <;> omega

/-- A flip changes the popcount sum by 1, up for a 0 bit and down for a 1 bit (R73 d). -/
theorem popcountSum_flipBit {bytes : List Byte} {k j : Nat} (hk : k < bytes.length) (hj : j < 8) :
    popcountSum (flipBit bytes k j) + (bitAt bytes k j).toNat = popcountSum bytes + (!bitAt bytes k j).toNat := by
  have hb := List.getElem?_eq_getElem hk
  have hsum := popcountSum_set bytes k _ (bytes[k] ^^^ BitVec.twoPow 8 j) hb
  have hcount := popcount_xor_twoPow bytes[k] hj
  rw [flipBit_of_getElem? hb, bitAt_of_getElem? hb]
  omega

/-- No flip keeps the checksum: the sum changes by 1, which is not 0 modulo 256 (R73 d). -/
theorem cksum_flipBit_ne {bytes : List Byte} {k j : Nat} (hk : k < bytes.length) (hj : j < 8) :
    cksum (flipBit bytes k j) ≠ cksum bytes := by
  intro h
  have hmod := congrArg BitVec.toNat h
  rw [cksum_toNat, cksum_toNat] at hmod
  have hsum := popcountSum_flipBit hk hj
  have hbit : (!bitAt bytes k j).toNat + (bitAt bytes k j).toNat = 1 := by cases bitAt bytes k j <;> rfl
  omega

/-! ### Flips in a payload and in its checksum byte -/

theorem flipBit_append_left {pre : List Byte} {k : Nat} (hk : k < pre.length) (suf : List Byte) (j : Nat) :
    flipBit (pre ++ suf) k j = flipBit pre k j ++ suf := by
  have hb := List.getElem?_eq_getElem hk
  rw [flipBit_of_getElem? hb, flipBit_of_getElem? ((List.getElem?_append_left hk).trans hb), List.set_append_left _ _ hk]

theorem bitAt_append_left {pre : List Byte} {k : Nat} (hk : k < pre.length) (suf : List Byte) (j : Nat) :
    bitAt (pre ++ suf) k j = bitAt pre k j := by
  rw [bitAt, bitAt, List.getElem?_append_left hk]

theorem flipBit_concat_last (pre : List Byte) (c : Byte) (j : Nat) :
    flipBit (pre ++ [c]) pre.length j = pre ++ [c ^^^ BitVec.twoPow 8 j] := by
  rw [flipBit_of_getElem? List.getElem?_concat_length]
  simp

/-- A verified sequence is a nonempty payload followed by its checksum (43_checksum.md R77). -/
theorem exists_payload_of_verifyBytes {frame : List Byte} (h : verifyBytes frame = true) :
    ∃ pre, pre ≠ [] ∧ frame = pre ++ [cksum pre] := by
  obtain rfl | ⟨pre, c, rfl⟩ := frame.eq_nil_or_concat'
  · cases h
  · have hne : pre ≠ [] := by
      rintro rfl
      cases h
    rw [verifyBytes_snoc pre c hne, decide_eq_true_iff] at h
    exact ⟨pre, hne, by rw [h]⟩

theorem flipBit_ne_nil {bytes : List Byte} (h : bytes ≠ []) (k j : Nat) : flipBit bytes k j ≠ [] := by
  rwa [← List.length_pos_iff, flipBit_length, List.length_pos_iff]

/-- No single flip passes VERIFY. -/
theorem verifyBytes_flipBit {frame : List Byte} (h : verifyBytes frame = true) {k j : Nat} (hk : k < frame.length)
    (hj : j < 8) : verifyBytes (flipBit frame k j) = false := by
  obtain ⟨pre, hne, rfl⟩ := exists_payload_of_verifyBytes h
  by_cases hpre : k < pre.length
  · rw [flipBit_append_left hpre, verifyBytes_snoc _ _ (flipBit_ne_nil hne k j)]
    exact decide_eq_false (cksum_flipBit_ne hpre hj)
  · obtain rfl : k = pre.length := by
      rw [List.length_append, List.length_singleton] at hk
      omega
    rw [flipBit_concat_last, verifyBytes_snoc _ _ hne]
    exact decide_eq_false (xor_twoPow_ne _ hj).symm

/-- A flip up and a flip down in the payload pass VERIFY (R73 e). -/
theorem verifyBytes_opposite_flips {frame : List Byte} (h : verifyBytes frame = true) {k j k' j' : Nat}
    (hk : k + 1 < frame.length) (hj : j < 8) (hbit : bitAt frame k j = false)
    (hk' : k' + 1 < frame.length) (hj' : j' < 8) (hbit' : bitAt frame k' j' = true) :
    verifyBytes (flipBit (flipBit frame k j) k' j') = true := by
  obtain ⟨pre, hne, rfl⟩ := exists_payload_of_verifyBytes h
  rw [List.length_append, List.length_singleton, Nat.add_lt_add_iff_right] at hk hk'
  rw [bitAt_append_left hk] at hbit
  rw [bitAt_append_left hk'] at hbit'
  have hkept : bitAt (flipBit pre k j) k' j' = true := by
    rw [bitAt_flipBit_of_ne _ hj, hbit']
    rintro ⟨rfl, rfl⟩
    rw [hbit] at hbit'
    cases hbit'
  have hlength := flipBit_length pre k j
  have hup := popcountSum_flipBit hk hj
  have hdown := popcountSum_flipBit (hlength ▸ hk') hj'
  rw [hbit] at hup
  rw [hkept] at hdown
  have hsum : popcountSum (flipBit (flipBit pre k j) k' j') = popcountSum pre := by
    simp only [Bool.not_true, Bool.not_false, Bool.toNat_true, Bool.toNat_false] at hup hdown
    omega
  rw [flipBit_append_left hk, flipBit_append_left (hlength ▸ hk'),
    verifyBytes_snoc _ _ (flipBit_ne_nil (flipBit_ne_nil hne _ _) _ _), decide_eq_true_iff, cksum, cksum, hsum]

/-! ### DECODE of a flipped frame (R73 d, e) -/

/-- Two length fields that count the same bytes are equal. -/
theorem lengthField_unique {l0 l1 m0 m1 : Byte} (h : l0.toNat + 256 * l1.toNat = m0.toNat + 256 * m1.toNat) :
    l0 = m0 ∧ l1 = m1 := by
  have := l0.isLt
  have := m0.isLt
  constructor <;> apply BitVec.eq_of_toNat_eq <;> omega

/-- A flip in the length field is a structural failure: the number of bytes stays, what the field counts does not. -/
theorem structurallyBad_flipBit_lengthField {cap : Nat} {frame : List Byte} {f : Frame} (hp : parseFrame cap frame = some f)
    {k j : Nat} (hk : k = 3 ∨ k = 4) (hj : j < 8) : StructurallyBad cap (flipBit frame k j) := by
  obtain ⟨b0, b1, fl, l0, l1, body, c, rfl, hlen, -, -⟩ := (parseFrame_eq_some_iff cap frame f).mp hp
  have hsize : ([b0, b1, fl, l0, l1] ++ body ++ [c]).length = l0.toNat + 256 * l1.toNat := by
    rw [hlen]
    simp
    omega
  refine .inr (.inr ?_)
  rw [flipBit_length, hsize]
  obtain rfl | rfl := hk
  · exact ⟨_, l1, flipBit_getElem?_self rfl j, flipBit_getElem?_of_ne (by decide) _ j,
      .inr fun h => xor_twoPow_ne l0 hj (lengthField_unique h).1⟩
  · exact ⟨l0, _, flipBit_getElem?_of_ne (by decide) _ j, flipBit_getElem?_self rfl j,
      .inr fun h => xor_twoPow_ne l1 hj (lengthField_unique h).2⟩

/-- Flips elsewhere leave the structural checks as they were. -/
theorem parseFrame_flipBit_isSome {cap : Nat} {frame : List Byte} {f : Frame} (hp : parseFrame cap frame = some f) {k : Nat}
    (h3 : k ≠ 3) (h4 : k ≠ 4) (j : Nat) : ∃ g, parseFrame cap (flipBit frame k j) = some g := by
  refine Option.ne_none_iff_exists'.mp fun hnone => ?_
  rw [parseFrame_eq_none_iff, structurallyBad_congr (flipBit_length frame k j) (flipBit_getElem?_of_ne h3 _ j)
    (flipBit_getElem?_of_ne h4 _ j), ← parseFrame_eq_none_iff, hp] at hnone
  cases hnone

/-- Settles O26. -/
theorem singleBitFlipIsReported : Obligations.SingleBitFlipIsReported := by
  intro frame s t s' k j h hok hk hj
  obtain ⟨f, hp, hverified, -⟩ := stored_of_ok h hok
  refine ⟨_, exec_decode _ s', ?_⟩
  rw [lastCode_deliver]
  by_cases hfield : k = 3 ∨ k = 4
  · rw [if_pos hfield, (parseFrame_eq_none_iff _ _).mpr (structurallyBad_flipBit_lengthField hp hfield hj)]
    rfl
  · obtain ⟨h3, h4⟩ := not_or.mp hfield
    obtain ⟨g, hg⟩ := parseFrame_flipBit_isSome hp h3 h4 j
    have hcrc := frameCrcErr_eq_not_verifyBytes hg
    rw [verifyBytes_flipBit hverified hk hj] at hcrc
    rw [if_neg hfield, hg, delivery, hcrc]
    rfl

/-- Settles O27. -/
theorem oppositeFlipsPassTheChecksum : Obligations.OppositeFlipsPassTheChecksum := by
  intro frame s t s' k j k' j' h hok hk h3 h4 hj hbit hk' h3' h4' hj' hbit'
  obtain ⟨f, hp, hverified, -⟩ := stored_of_ok h hok
  obtain ⟨g, hg⟩ := parseFrame_flipBit_isSome hp h3 h4 j
  obtain ⟨g', hg'⟩ := parseFrame_flipBit_isSome hg h3' h4' j'
  have hcrc := frameCrcErr_eq_not_verifyBytes hg'
  rw [verifyBytes_opposite_flips hverified hk hj hbit hk' hj' hbit'] at hcrc
  refine ⟨_, exec_decode _ s', ?_⟩
  rw [hg']
  exact ⟨statusValid_statusByte _ _, (statusCrcErr_statusByte _ _).trans hcrc⟩

end Sys2Proof.Deserialize
end

section
/-!
PROOFS. The checksum (43_checksum.md): the popcount sum as a count, as an accumulator and under reordering; what CKSUM and VERIFY
answer; and VERIFY as DECODE's own check.
-/

namespace Sys2Proof.Checksum

open Sys2Proof.Machine Sys2Proof.Deserialize

/-! ### popcount and cksum (R74, R75) -/

theorem popcount_eq_countP (b : Byte) : popcount b = (List.range 8).countP (fun j => b.getLsbD j) := by
  have hstep (n : Nat) : (List.range (n + 1)).countP (fun j => b.getLsbD j) =
      (List.range n).countP (fun j => b.getLsbD j) + (b.getLsbD n).toNat := by
    rw [List.range_succ, List.countP_append, List.countP_singleton, Bool.toNat, Bool.cond_eq_ite]
  simp only [popcount, hstep, List.range_zero, List.countP_nil, Nat.zero_add]

theorem cksum_toNat_eq_sum_map (bytes : List Byte) : (cksum bytes).toNat = (bytes.map popcount).sum % 256 := by
  rw [cksum_toNat, popcountSum_eq_sum_map]

theorem cksum_nil : cksum [] = 0#8 := rfl

/-- A byte in front adds its popcount, and the sum wraps. -/
theorem cksum_cons (b : Byte) (bytes : List Byte) : cksum (b :: bytes) = BitVec.ofNat 8 (popcount b) + cksum bytes := by
  rw [cksum, cksum, popcountSum_cons, BitVec.ofNat_add]

/-- The accumulator, started anywhere, ends with the checksum of the bytes it has seen added to its start. -/
theorem foldl_add_popcount (bytes : List Byte) (acc : Byte) :
    bytes.foldl (fun acc b => acc + BitVec.ofNat 8 (popcount b)) acc = acc + cksum bytes := by
  induction bytes generalizing acc with
  | nil => rw [List.foldl_nil, cksum_nil, BitVec.add_zero]
  | cons b bytes ih => rw [List.foldl_cons, ih, cksum_cons, BitVec.add_assoc]

theorem popcountSum_perm {bytes bytes' : List Byte} (h : bytes.Perm bytes') : popcountSum bytes = popcountSum bytes' := by
  rw [popcountSum_eq_sum_map, popcountSum_eq_sum_map, (h.map popcount).sum_eq]

/-- Settles O29. -/
theorem checksumIsThePopcountSum : Obligations.ChecksumIsThePopcountSum := by
  refine ⟨fun b => ⟨popcount_eq_countP b, popcount_le b⟩, cksum_toNat_eq_sum_map, cksum_nil, fun bytes => ?accumulator,
    fun bytes bytes' h => ?reordered⟩
  case accumulator => rw [foldl_add_popcount, BitVec.zero_add]
  case reordered => rw [cksum, cksum, popcountSum_perm h]

/-! ### CKSUM (R76) -/

/-- Settles O30. -/
theorem cksumAnswersTheChecksum : Obligations.CksumAnswersTheChecksum := fun input _ =>
  ⟨rfl, cksum input, cksum_toNat_eq_sum_map input, rfl⟩

/-! ### VERIFY (R77) -/

theorem exec_verify (input : List Byte) (s : State) :
    exec (.verify input) s = .next { s with responses := s.responses ++ [⟨.ok, .bit (verifyBytes input)⟩] } := rfl

/-- Below 2 bytes there is no payload to check, so the answer is false. -/
theorem verifyBytes_of_length_le_one {input : List Byte} (h : input.length ≤ 1) : verifyBytes input = false := if_pos h

theorem verifyBytes_concat_eq_decide_sum {pre : List Byte} (h : pre ≠ []) (c : Byte) :
    verifyBytes (pre ++ [c]) = decide ((pre.map popcount).sum % 256 = c.toNat) := by
  rw [verifyBytes_snoc pre c h, decide_eq_decide, ← cksum_toNat_eq_sum_map, BitVec.toNat_inj]

theorem deliver_status (s : State) (d : Delivery) : (deliver s d).status = d.status := rfl

/-- A DECODE that stored a frame set `CRC_ERR` to the opposite of VERIFY's answer; one that set no `VALID` checked nothing. -/
theorem verifyBytes_eq_not_statusCrcErr {input : List Byte} {s t : State} (h : exec (.decode input) s = .next t)
    (hvalid : statusValid t.status = true) : verifyBytes input = !statusCrcErr t.status := by
  obtain rfl := Host.Outcome.next.inj ((exec_decode input s).symm.trans h)
  rw [deliver_status] at hvalid ⊢
  cases hp : parseFrame Config.bodyCap input with
  | none => simp [hp, delivery] at hvalid
  | some f => simp [delivery, frameCrcErr_eq_not_verifyBytes hp]

/-- Settles O31. -/
theorem verifyTestsTheTrailingByte : Obligations.VerifyTestsTheTrailingByte := by
  refine ⟨fun _ => rfl, fun input s hshort => ?short, fun pre c s hpre => ?trailing, fun input s t u h hvalid => ?decode⟩
  case short => rw [exec_verify, verifyBytes_of_length_le_one hshort]
  case trailing => rw [exec_verify, verifyBytes_concat_eq_decide_sum hpre]
  case decode => rw [exec_verify, verifyBytes_eq_not_statusCrcErr h hvalid]

end Sys2Proof.Checksum
end

section
/-!
PROOFS. The accessors (44_access.md): each answers what its bank stores and changes nothing else; and GETCMD RX after a DECODE
that stored a frame says what `FLAG_ERR` says.
-/

namespace Sys2Proof.Accessors

open Sys2Proof.Machine Sys2Proof.Invariant Sys2Proof.Construct

/-! ### The stored value (R80, R82, R84 to R86) -/

/-- Settles O32: no case split on the state is needed, since each accessor answers one stored register as it is. -/
theorem accessorsAnswerTheStoredValue : Obligations.AccessorsAnswerTheStoredValue :=
  ⟨fun _ _ => ⟨rfl, rfl, rfl, rfl, rfl⟩, fun s => ⟨State.bank_tx s, State.bank_rx s⟩,
    rfl, rfl, rfl, rfl, rfl, rfl, rfl, rfl, rfl⟩

/-! ### GETCMD (R81) -/

theorem exec_getcmd (b : BankId) (s : State) :
    exec (.getcmd b) s = answerKind (kindOf (s.bank b).drive (s.bank b).resp (s.bank b).sleep) s := rfl

/-- Settles O33, one case per row of the truth table. -/
theorem getcmdTruthTable : Obligations.GetcmdTruthTable := by
  refine ⟨⟨rfl, rfl⟩, fun b s => ?_⟩
  rw [exec_getcmd]
  cases (s.bank b).sleep <;> cases (s.bank b).resp <;> cases (s.bank b).drive <;> rfl

/-- A question for a kind is answered by the error exactly when there is none to answer with. -/
theorem answerKind_eq_error_iff (k : Option CommandKind) (s : State) :
    answerKind k s = .next { s with responses := s.responses ++ [⟨.malformedCommandFlags, .nothing⟩] } ↔ k = none := by
  simp [answerKind_next]

theorem answerKind_eq_kind_iff (k : Option CommandKind) (s : State) :
    (∃ k', answerKind k s = .next { s with responses := s.responses ++ [⟨.ok, .kind k'⟩] }) ↔ k ≠ none := by
  simp [answerKind_next, Option.ne_none_iff_exists']

/-- What DECODE leaves in `RX` and `RX.STATUS` satisfies the invariant, whatever state it started from: it overwrites both. -/
theorem rxInv_of_decode {input : List Byte} {s t : State} (h : exec (.decode input) s = .next t) :
    RxInv Config.bodyCap t.rx t.status := by
  obtain ⟨-, rfl⟩ | ⟨f, hf, rfl⟩ := (decodeWith_next _ input s t).mp h
  · exact rxInv_empty _ (.inr rfl)
  · exact rxInv_commit hf s.rx

/-- Settles O28: under `VALID`, `FLAG_ERR` says that `RX` has not exactly one command flag, which is when GETCMD finds no
kind. -/
theorem getcmdAgreesWithFlagErr : Obligations.GetcmdAgreesWithFlagErr := by
  intro input s t h hvalid
  have hflag : statusFlagErr t.status = true ↔ kindOf t.rx.drive t.rx.resp t.rx.sleep = none :=
    ((rxInv_of_decode h).flagErrAgrees hvalid).trans (kindOf_eq_none_iff _ _ _).symm
  rw [exec_getcmd, State.bank_rx, answerKind_eq_error_iff, answerKind_eq_kind_iff, ← Bool.not_eq_true]
  exact ⟨hflag, not_congr hflag⟩

/-! ### GETBODY (R83) -/

/-- Settles O34. -/
theorem getbodyAnswersTheBody : Obligations.GetbodyAnswersTheBody :=
  ⟨⟨rfl, rfl⟩, fun _ _ _ hholds => exec_getbody_of_holdsBody hholds⟩

end Sys2Proof.Accessors
end

section
/-!
PROOFS. The Drive body (45_drive_body.md): PACKDRIVE as the SETBODY of its four bytes, UNPACKDRIVE of a 4-byte body, and the
operand values coming back from `TX` and, across ENCODE and DECODE, from `RX`.
-/

namespace Sys2Proof.DriveBody

open Sys2Proof.Machine Sys2Proof.Safety Sys2Proof.Family Sys2Proof.Invariant Sys2Proof.Encodings Sys2Proof.Construct
  Sys2Proof.Serialize

/-! ### PACKDRIVE (R87) -/

theorem exec_packdrive (d u : Byte) (v : Half) (s : State) :
    exec (.packdrive d u v) s = .next (afterSetter (.packdrive d u v) s) :=
  exec_setter (i := .packdrive d u v) rfl nofun s

/-- The bank after PACKDRIVE passes ENCODE's length check and holds the Drive bytes, whatever it held before. -/
theorem serializable_afterPackdrive (d u : Byte) (v : Half) (s : State) :
    Serializable (afterSetter (.packdrive d u v) s).tx (driveBody d u v) where
  lenCounts := lenCounts_loadBody s.tx (by simp)
  holdsBody := holdsBody_loadBody s.tx _ (by simp)

/-- Four bytes fit every buffer, so the SETBODY of them is never refused (00_scope.md R8). -/
theorem exec_packdrive_eq_setbody (d u : Byte) (v : Half) (s : State) :
    exec (.packdrive d u v) s = exec (.setbody (driveBody d u v)) s := by
  have hfit : (driveBody d u v).length ≤ Config.bodyCap := Config.bodyCap_range.1
  rw [exec_packdrive, exec_setbody hfit]
  rfl

/-- Settles O35. -/
theorem packdriveWritesTheDriveBody : Obligations.PackdriveWritesTheDriveBody := by
  intro d u v s
  have hread := (serializable_afterPackdrive d u v s).holdsBody.2
  exact ⟨⟨driveWord d u v, rfl, driveWord_toNat d u v⟩, exec_packdrive_eq_setbody d u v s,
    afterSetter (.packdrive d u v) s, exec_packdrive d u v s,
    hread 0 (by simp), hread 1 (by simp), hread 2 (by simp), hread 3 (by simp),
    rfl, rfl, rfl, rfl, rfl, rfl, rfl, rfl, rfl, rfl, rfl, rfl⟩

/-! ### UNPACKDRIVE (R88) -/

/-- The answer depends on the body of the bank alone. -/
theorem exec_unpackdrive_of_holdsBody {b : BankId} {s : State} {body : List Byte} {d u : Byte} {v : Half}
    (hholds : HoldsBody (s.bank b) body) (hsize : body.length = 4) (hparse : parseDrive body = some (d, u, v)) :
    exec (.unpackdrive b) s = .next (s.respond ⟨.ok, .drive d u v⟩) := by
  have htriple : (s.bank b).bodyBytes.bind parseDrive = some (d, u, v) := by
    rw [(Bank.bodyBytes_eq_some_iff _ body).mpr hholds, Option.bind_some, hparse]
  exact execUnpackdrive_answer (hholds.1.symm.trans hsize) htriple

/-- Settles O36. -/
theorem unpackdriveAnswersTheTriple : Obligations.UnpackdriveAnswersTheTriple :=
  ⟨⟨rfl, rfl⟩,
    fun _ _ _ _ b2 b3 hholds => ⟨unle16 b2 b3, unle16_toNat b2 b3, exec_unpackdrive_of_holdsBody hholds rfl rfl⟩,
    fun _ _ hblen => execUnpackdrive_refused hblen⟩

/-! ### The value predicates (R89) -/

/-- The byte that stands for a direction (R49). -/
def directionCode : Direction → Byte
  | .forward => 1
  | .backward => 2
  | .right => 3
  | .left => 4

theorem dirname_eq_some_iff (c : Byte) (dir : Direction) : dirname c = some dir ↔ c = directionCode dir := by
  constructor
  · intro h
    unfold dirname at h
    split at h
    case h_5 => cases h
    all_goals
      obtain rfl := Option.some.inj h
      exact eq_ofNat_of_toNat ‹_›
  · rintro rfl
    cases dir <;> rfl

theorem dirname_eq_none_iff (c : Byte) : dirname c = none ↔ c = 0 ∨ 5 ≤ c.toNat := by
  have hzero : c = 0 ↔ c.toNat = 0 := BitVec.toNat_inj.symm
  rw [hzero]
  unfold dirname
  split
  case h_5 h1 h2 h3 h4 =>
    rw [imp_false] at h1 h2 h3 h4
    simp only [true_iff]
    omega
  all_goals
    simp only [reduceCtorEq, false_iff]
    omega

theorem driveInContract_iff (d u : Byte) (v : Half) :
    driveInContract d u v = true ↔ 1 ≤ d.toNat ∧ d.toNat ≤ 4 ∧ 80 ≤ v.toNat ∧ v.toNat ≤ 100 := decide_eq_true_iff

/-! ### The round trip (R89) -/

theorem exec_unpackdrive_of_driveBody {b : BankId} {s : State} {d u : Byte} {v : Half}
    (hholds : HoldsBody (s.bank b) (driveBody d u v)) :
    exec (.unpackdrive b) s = .next (s.respond ⟨.ok, .drive d u v⟩) :=
  exec_unpackdrive_of_holdsBody hholds (driveBody_length d u v) (parseDrive_driveBody d u v)

/-- Through `TX` alone. -/
theorem execAll_packdrive_unpackdrive (d u : Byte) (v : Half) (s : State) :
    execAll [.packdrive d u v, .unpackdrive .tx] s =
      .next ((afterSetter (.packdrive d u v) s).respond ⟨.ok, .drive d u v⟩) := by
  rw [execAll_cons_of_next (exec_packdrive d u v s)]
  exact execAll_singleton_of_next (exec_unpackdrive_of_driveBody (serializable_afterPackdrive d u v s).holdsBody)

theorem execAll_packdrive_encode (d u : Byte) (v : Half) (s : State) :
    execAll [.packdrive d u v, .encode] s = .next (emit (afterSetter (.packdrive d u v) s) (driveBody d u v)) := by
  rw [execAll_cons_of_next (exec_packdrive d u v s)]
  exact execAll_singleton_of_next (exec_encode_of_serializable (serializable_afterPackdrive d u v s))

/-- The receiving bank holds the body that the frame carries. -/
theorem holdsBody_commit {f : Frame} (old : Bank) (h : f.body.length < 65536) : HoldsBody (old.commit f) f.body :=
  holdsBody_withBody _ f.body h

/-- Any receiver of the frame of a bank with a Drive body unpacks that body's operands from `RX`. -/
theorem execAll_decode_unpackdrive {b : Bank} {d u : Byte} {v : Half} (h : Serializable b (driveBody d u v)) (s : State) :
    ∃ t : State, execAll [.decode (frameOf b (driveBody d u v)), .unpackdrive .rx] s =
      .next (t.respond ⟨.ok, .drive d u v⟩) := by
  obtain ⟨t, hdecode, hrx, -⟩ := execOn_decode_frameOf h s
  have hexec : exec (.decode (frameOf b (driveBody d u v))) s = .next t :=
    (exec_eq_execOn _ s).trans (hdecode _ h.length_le)
  have hholds : HoldsBody (t.bank .rx) (driveBody d u v) := by
    rw [State.bank_rx, hrx]
    exact holdsBody_commit (f := carried b (driveBody d u v)) s.rx (show 4 < 65536 by decide)
  refine ⟨t, ?_⟩
  rw [execAll_cons_of_next hexec]
  exact execAll_singleton_of_next (exec_unpackdrive_of_driveBody hholds)

/-- Settles O37. -/
theorem driveRoundTrip : Obligations.DriveRoundTrip := by
  refine ⟨fun c => ⟨dirname_eq_some_iff c _, dirname_eq_some_iff c _, dirname_eq_some_iff c _, dirname_eq_some_iff c _,
    dirname_eq_none_iff c⟩, driveInContract_iff, fun d u v s => ⟨?withinTx, ?acrossTheWire⟩⟩
  case withinTx => exact ⟨_, execAll_packdrive_unpackdrive d u v s, List.append_assoc _ _ _⟩
  case acrossTheWire =>
    obtain ⟨t, hreceive⟩ := execAll_decode_unpackdrive (serializable_afterPackdrive d u v s)
      (emit (afterSetter (.packdrive d u v) s) (driveBody d u v))
    exact ⟨_, _, execAll_packdrive_encode d u v s, List.append_assoc _ _ _, _, hreceive, List.getLast?_concat⟩

end Sys2Proof.DriveBody
end

section
/-!
PROOFS. Exceptions (60_exceptions.md): nothing happens without an operation, the structural failure of DECODE and its causes, and
the independence of the two units: an operation of ENC acts on `TX` as a function of `TX`, one of DEC on `RX` and its status as a
function of those.
-/

namespace Sys2Proof.Exceptions

open Sys2Proof.Machine Sys2Proof.Safety Sys2Proof.Family Sys2Proof.Construct Sys2Proof.Serialize Sys2Proof.Deserialize

/-! ### No operation issued (R97) -/

/-- Settles O8: the other two cases of a step have a request at the head of the queue. -/
theorem stepWithoutRequestChangesNothing : Obligations.StepWithoutRequestChangesNothing := by
  intro s hqueue
  rcases step_cases s with ⟨-, hidle⟩ | ⟨r, rest, i, hcons, -⟩ | ⟨r, rest, e, hcons, -⟩
  · exact hidle
  · cases hqueue.symm.trans hcons
  · cases hqueue.symm.trans hcons

/-! ### The structural failure of DECODE (R93) -/

theorem execOn_decode_of_structurallyBad {cap : Nat} {input : List Byte} (h : StructurallyBad cap input) (s : State) :
    execOn cap (.decode input) s = .next (deliver s (delivery input none)) := by
  rw [execOn_decode, (parseFrame_eq_none_iff cap input).mpr h]

/-- A frame that passed the structural checks gets one of the other codes (R98). -/
theorem decodeCode_ne_truncatedOrOversizedFrame (crcErr flagErr : Bool) :
    decodeCode crcErr flagErr ≠ .truncatedOrOversizedFrame := by
  cases crcErr <;> cases flagErr <;> decide

theorem delivery_code_eq_truncatedOrOversizedFrame_iff (input : List Byte) (frame : Option Frame) :
    (delivery input frame).response.code = .truncatedOrOversizedFrame ↔ frame = none := by
  cases frame with
  | none => exact iff_of_true rfl rfl
  | some f => exact iff_of_false (decodeCode_ne_truncatedOrOversizedFrame _ _) nofun

theorem structurallyBad_of_lastCode {cap : Nat} {input : List Byte} {s t : State} (h : execOn cap (.decode input) s = .next t)
    (hcode : lastCode t = some .truncatedOrOversizedFrame) : StructurallyBad cap input := by
  obtain rfl := Host.Outcome.next.inj ((execOn_decode cap input s).symm.trans h)
  rw [lastCode_deliver, Option.some.injEq, delivery_code_eq_truncatedOrOversizedFrame_iff] at hcode
  exact (parseFrame_eq_none_iff cap input).mp hcode

/-- Settles O23. The default machine is the instance of the default capacity. -/
theorem decodeStructuralFailure : Obligations.DecodeStructuralFailure := by
  refine ⟨fun _ => rfl, fun cap input s _ hbad => ?failure, fun cap input s t _ h hcode => ?cause⟩
  case failure =>
    have hrun := execOn_decode_of_structurallyBad hbad s
    refine ⟨_, hrun, ?_, rfl, rfl, rfl, rfl, rfl, rfl, rfl, rfl, rfl, rfl, rfl, rfl⟩
    rintro rfl
    exact (exec_eq_execOn _ s).trans hrun
  case cause =>
    rcases h with h | ⟨rfl, h⟩
    · exact structurallyBad_of_lastCode h hcode
    · exact structurallyBad_of_lastCode ((exec_eq_execOn _ s).symm.trans h) hcode

/-! ### What a unit's operations read (R104; 20_memory.md R39) -/

/-- The bank whose unit holds a part of the state: the status is DEC's (10_state.md R13, R22). -/
def unitOf : Part → BankId
  | .bank b _ => b
  | .status => .rx

/-- Who reads a part is an operation of the unit that holds it, and of no other. -/
theorem unit_of_reads {i : Instr} {p : Part} (hr : reads i p = true) :
    ofEnc i = decide (unitOf p = .tx) ∧ ofDec i = decide (unitOf p = .rx) := by
  cases i with
  | getseq b | getcmd b | getack b | getlen b | getcrc b | getstatus =>
    obtain rfl := of_decide_eq_true hr
    exact ⟨rfl, rfl⟩
  | getbody b | unpackdrive b => obtain rfl | rfl := of_decide_eq_true hr <;> exact ⟨rfl, rfl⟩
  | encode =>
    cases p with
    | status => cases hr
    | bank b f =>
      cases b with
      | tx => exact ⟨rfl, rfl⟩
      | rx => cases hr
  | _ => cases hr

/-- An operation of ENC reads nothing but `TX`. -/
theorem readAlike_of_ofEnc {i : Instr} (hi : ofEnc i = true) {s u : State} (htx : u.tx = s.tx) : ReadAlike i s u := by
  intro p hr
  have hunit : unitOf p = .tx := of_decide_eq_true ((unit_of_reads hr).1.symm.trans hi)
  cases p with
  | status => cases hunit
  | bank b f =>
    obtain rfl : b = .tx := hunit
    show sameField f s.tx u.tx
    rw [htx]
    exact sameField_refl f s.tx

/-- An operation of DEC reads nothing but `RX` and its status. -/
theorem readAlike_of_ofDec {j : Instr} (hj : ofDec j = true) {s u : State} (hrx : u.rx = s.rx) (hstatus : u.status = s.status) :
    ReadAlike j s u := by
  intro p hr
  have hunit : unitOf p = .rx := of_decide_eq_true ((unit_of_reads hr).2.symm.trans hj)
  cases p with
  | status => exact hstatus.symm
  | bank b f =>
    obtain rfl : b = .rx := hunit
    show sameField f s.rx u.rx
    rw [hrx]
    exact sameField_refl f s.rx

/-! ### What a unit's operations do (R104; 20_memory.md R39) -/

/-- On every state with the `TX` of `s`, the operation completes, leaves the bank `b` in `TX` and answers `r`. -/
def RunsInEnc (i : Instr) (s : State) (b : Bank) (r : Response) : Prop :=
  ∀ u : State, u.tx = s.tx → exec i u = .next ((u.withTx b).respond r)

/-- On every state with the `RX` and the status of `s`, the operation completes with the outcome `d`. -/
def RunsInDec (j : Instr) (s : State) (d : Delivery) : Prop :=
  ∀ u : State, u.rx = s.rx → u.status = s.status → exec j u = .next (deliver u d)

/-- An operation that only answers gives, on every state that agrees with `s` on what it reads, the response it gives on `s`. -/
theorem exists_response_of_observer {i : Instr} (hobs : isObserver i = true) {s s' : State} (h : exec i s = .next s') :
    ∃ r, ∀ u, ReadAlike i s u → exec i u = .next (u.respond r) := by
  obtain ⟨r, rfl⟩ := exec_observer_next hobs h
  refine ⟨r, fun u halike => ?_⟩
  obtain ⟨r', hs, hu⟩ | hno := exec_observer_alike hobs halike
  · obtain rfl : r = r' := by simpa [h, State.respond] using hs
    exact hu
  · exact absurd h (hno _)

theorem ofDec_setter {i : Instr} (hset : isSetter i = true) : ofDec i = false := by
  cases i with
  | setseq _ | setcmd _ | setack _ | setbody _ | setlen _ | packdrive _ _ _ => rfl
  | _ => cases hset

/-- What an operation of ENC does is a function of `TX`, by family. -/
theorem exists_runsInEnc {i : Instr} (hi : ofEnc i = true) {s s' : State} (h : exec i s = .next s') :
    ∃ b r, RunsInEnc i s b r := by
  rcases family_cases i with ⟨b, rfl⟩ | hset | rfl | ⟨input, rfl⟩ | hobs
  · obtain rfl : b = .tx := of_decide_eq_true hi
    exact ⟨Bank.empty, ⟨.ok, .nothing⟩, fun _ _ => rfl⟩
  · obtain ⟨hfit, -⟩ := (execOn_setter_next hset s s').mp (exec_eq_execOn i s ▸ h)
    exact ⟨setTx i s.tx, ⟨.ok, .nothing⟩, fun u htx => htx ▸ exec_setter hset hfit u⟩
  · obtain ⟨hlen, -⟩ | ⟨body, hbody, -⟩ := exec_encode_cases h
    · refine ⟨s.tx, ⟨.invalidHeaderLength, .nothing⟩, fun u htx => ?_⟩
      rw [← htx] at hlen ⊢
      exact exec_encode_of_not_lenCounts hlen
    · refine ⟨s.tx.withCrc (checksumOf s.tx body), ⟨.ok, .bytes (frameOf s.tx body)⟩, fun u htx => ?_⟩
      rw [← htx] at hbody ⊢
      exact exec_encode_of_serializable hbody
  · cases hi
  · obtain ⟨r, hanswer⟩ := exists_response_of_observer hobs h
    refine ⟨s.tx, r, fun u htx => ?_⟩
    rw [hanswer u (readAlike_of_ofEnc hi htx), ← htx]
    rfl

/-- What an operation of DEC does is a function of `RX` and its status, by family. -/
theorem exists_runsInDec {j : Instr} (hj : ofDec j = true) {s s' : State} (h : exec j s = .next s') :
    ∃ d, RunsInDec j s d := by
  rcases family_cases j with ⟨b, rfl⟩ | hset | rfl | ⟨input, rfl⟩ | hobs
  · obtain rfl : b = .rx := of_decide_eq_true hj
    exact ⟨⟨Bank.empty, 0, ⟨.ok, .nothing⟩⟩, fun _ _ _ => rfl⟩
  · rw [ofDec_setter hset] at hj
    cases hj
  · cases hj
  · exact ⟨delivery input (parseFrame Config.bodyCap input), fun u _ _ => exec_decode input u⟩
  · obtain ⟨r, hanswer⟩ := exists_response_of_observer hobs h
    refine ⟨⟨s.rx, s.status, r⟩, fun u hrx hstatus => ?_⟩
    rw [hanswer u (readAlike_of_ofDec hj hrx hstatus), ← hrx, ← hstatus]
    rfl

/-! ### The two units commute (R104; 20_memory.md R39) -/

/-- A script of two operations that completes has a state between them. -/
theorem execAll_pair_next {i j : Instr} {s t : State} (h : execAll [i, j] s = .next t) :
    ∃ m, exec i s = .next m ∧ exec j m = .next t := by
  rw [execAll] at h
  cases hi : exec i s with
  | next m =>
    rw [hi] at h
    refine ⟨m, rfl, ?_⟩
    cases hj : exec j m with
    | next t' => exact (execAll_singleton_of_next hj).symm.trans h
    | fault f => simp [execAll, hj] at h
    | refused r => simp [execAll, hj] at h
  | fault f => simp [hi] at h
  | refused r => simp [hi] at h

/-- Settles O49: neither operation changes what the other is a function of, so each does in the other order what it did. -/
theorem encAndDecAreIndependent : Obligations.EncAndDecAreIndependent := by
  intro i j s t hi hj h
  obtain ⟨m, hfirst, hsecond⟩ := execAll_pair_next h
  obtain ⟨b, r, henc⟩ := exists_runsInEnc hi hfirst
  obtain rfl := Host.Outcome.next.inj ((henc s rfl).symm.trans hfirst)
  obtain ⟨d, hdec⟩ := exists_runsInDec hj hsecond
  obtain rfl := Host.Outcome.next.inj ((hdec _ rfl rfl).symm.trans hsecond)
  have hother : execAll [j, i] s = .next (((deliver s d).withTx b).respond r) := by
    rw [execAll_cons_of_next (hdec s rfl rfl)]
    exact execAll_singleton_of_next (henc (deliver s d) rfl)
  exact ⟨_, r, d.response, hother, rfl, rfl, rfl, rfl, List.append_assoc _ _ _, List.append_assoc _ _ _⟩

end Sys2Proof.Exceptions
end

section
/-!
PROOFS. Hazards (70_reset_and_hazards.md): the setters of a packet under construction may be issued in any order, but for the
columns of `TX` that two of them write, where the later wins.
-/

namespace Sys2Proof.Hazards

open Sys2Proof.Machine Sys2Proof.Safety Sys2Proof.Family Sys2Proof.Access Sys2Proof.Construct Sys2Proof.Exceptions

/-! ### One column of a bank, the whole buffer included (10_state.md R26) -/

/-- `sameField`, with the body column read as the whole buffer: banks that agree in every column are then equal. -/
def SameColumn (f : Field) (a b : Bank) : Prop :=
  match f with
  | .body => a.body = b.body
  | f => sameField f a b

theorem sameColumn_of_sameField {f : Field} {a b : Bank} (h : sameField f a b) (hbody : f = .body → a.body = b.body) :
    SameColumn f a b := by
  cases f with
  | body => exact hbody rfl
  | _ => exact h

theorem SameColumn.sameField {f : Field} {a b : Bank} (h : SameColumn f a b) : sameField f a b := by
  cases f with
  | body => exact fun k _ _ => congrArg (Memory.readByte · k) h
  | _ => exact h

theorem SameColumn.symm {f : Field} {a b : Bank} (h : SameColumn f a b) : SameColumn f b a := by
  cases f with
  | command =>
    obtain ⟨hdrive, hresp, hsleep⟩ := h
    exact ⟨hdrive.symm, hresp.symm, hsleep.symm⟩
  | _ => exact Eq.symm h

theorem SameColumn.trans {f : Field} {a b c : Bank} (h : SameColumn f a b) (h' : SameColumn f b c) : SameColumn f a c := by
  cases f with
  | command =>
    obtain ⟨hdrive, hresp, hsleep⟩ := h
    obtain ⟨hdrive', hresp', hsleep'⟩ := h'
    exact ⟨hdrive.trans hdrive', hresp.trans hresp', hsleep.trans hsleep'⟩
  | _ => exact Eq.trans h h'

theorem eq_of_sameColumn {a b : Bank} (h : ∀ f, SameColumn f a b) : a = b := by
  have hseq : a.seq = b.seq := h .seq
  obtain ⟨hdrive, hresp, hsleep⟩ : sameField .command a b := h .command
  have hack : a.ack = b.ack := h .ack
  have hlen : a.len = b.len := h .len
  have hblen : a.blen = b.blen := h .blen
  have hbody : a.body = b.body := h .body
  have hcrc : a.crc = b.crc := h .crc
  cases a
  cases b
  simp_all only

/-! ### Setters on `TX` -/

/-- A setter keeps the columns outside its row, the buffer whole. -/
theorem sameColumn_setTx {i : Instr} {f : Field} (hw : writes i (.bank .tx f) = false) (b : Bank) :
    SameColumn f b (setTx i b) := by
  refine sameColumn_of_sameField (sameField_setTx hw b) ?_
  rintro rfl
  cases i with
  | setbody _ | packdrive _ _ _ => cases hw
  | _ => rfl

/-- Banks that agree in a column still do after a setter. -/
theorem SameColumn.setTx {i : Instr} (hi : isSetter i = true) {f : Field} {a b : Bank} (h : SameColumn f a b) :
    SameColumn f (setTx i a) (setTx i b) := by
  refine sameColumn_of_sameField (sameField_setTx_setTx hi (.inl h.sameField)) ?_
  rintro rfl
  have hbody : a.body = b.body := h
  cases i with
  | setbody _ | packdrive _ _ _ => simp only [Family.setTx, Bank.loadBody_body, hbody]
  | _ => exact hbody

/-- In a column that `j` does not write, both orders leave what `i` alone leaves. -/
theorem sameColumn_setTx_comm {i j : Instr} (hi : isSetter i = true) {f : Field} (hj : writes j (.bank .tx f) = false)
    (b : Bank) : SameColumn f (setTx j (setTx i b)) (setTx i (setTx j b)) :=
  have hlast : SameColumn f (setTx i b) (setTx j (setTx i b)) := sameColumn_setTx hj _
  have hfirst : SameColumn f (setTx i b) (setTx i (setTx j b)) := (sameColumn_setTx hj b).setTx hi
  hlast.symm.trans hfirst

theorem setTx_comm {i j : Instr} (hi : isSetter i = true) (hj : isSetter j = true)
    (hdisjoint : ∀ p, ¬ (writes i p = true ∧ writes j p = true)) (b : Bank) : setTx j (setTx i b) = setTx i (setTx j b) := by
  refine eq_of_sameColumn fun f => ?_
  cases hwj : writes j (.bank .tx f) with
  | false => exact sameColumn_setTx_comm hi hwj b
  | true =>
    have hwi : writes i (.bank .tx f) = false := Bool.eq_false_iff.mpr fun hwi => hdisjoint _ ⟨hwi, hwj⟩
    exact (sameColumn_setTx_comm hj hwi b).symm

/-! ### Two setters in a row (R108) -/

/-- Whether a setter completes does not depend on the state: only a SETBODY whose bytes do not fit is refused (R65, R101). -/
theorem exec_setter_cases {i : Instr} (hi : isSetter i = true) :
    (∀ s, exec i s = .next (afterSetter i s)) ∨ ∀ s, exec i s = .refused .bodyTooLong := by
  by_cases hfit : ∀ input, i = .setbody input → input.length ≤ Config.bodyCap
  · exact .inl (exec_setter hi hfit)
  · push Not at hfit
    obtain ⟨input, rfl, hlong⟩ := hfit
    exact .inr fun _ => if_pos hlong

theorem afterSetter_comm {i j : Instr} {s : State} (h : setTx j (setTx i s.tx) = setTx i (setTx j s.tx)) :
    afterSetter j (afterSetter i s) = afterSetter i (afterSetter j s) :=
  congrArg (fun b => ((s.withTx b).respond ⟨.ok, .nothing⟩).respond ⟨.ok, .nothing⟩) h

theorem execAll_setters_comm {i j : Instr} (hi : isSetter i = true) (hj : isSetter j = true)
    (hdisjoint : ∀ p, ¬ (writes i p = true ∧ writes j p = true)) (s : State) : execAll [i, j] s = execAll [j, i] s := by
  rcases exec_setter_cases hi with hexeci | hexeci <;> rcases exec_setter_cases hj with hexecj | hexecj
  case inl.inl =>
    simp only [execAll, hexeci, hexecj]
    exact congrArg _ (afterSetter_comm (setTx_comm hi hj hdisjoint s.tx))
  all_goals simp only [execAll, hexeci, hexecj]

theorem reads_setter {i : Instr} (hi : isSetter i = true) (p : Part) : reads i p = false := by
  cases i with
  | setseq _ | setcmd _ | setack _ | setbody _ | setlen _ | packdrive _ _ _ => rfl
  | _ => cases hi

/-- A setter reads nothing, so every two states are alike to it. -/
theorem readAlike_setter {i : Instr} (hi : isSetter i = true) (s t : State) : ReadAlike i s t := fun p hr => by
  simp [reads_setter hi p] at hr

/-- What a setter leaves in its row does not depend on the state it starts from, so an earlier write there is lost. -/
theorem samePart_of_exec_setter {j : Instr} (hj : isSetter j = true) {m s t u : State} (ht : exec j m = .next t)
    (hu : exec j s = .next u) {p : Part} (hw : writes j p = true) : samePart p t u := by
  obtain ⟨u', r, hu', -, -, hstays⟩ := exec_staysAlike (readAlike_setter hj m s) ht
  obtain rfl := Host.Outcome.next.inj (hu'.symm.trans hu)
  exact hstays p (.inr ⟨hw, by rintro rfl; cases hj⟩)

/-- Settles O17: by columns of `TX` for the order, by the setter's empty `r` row for the later write. -/
theorem settersOfDifferentFieldsCommute : Obligations.SettersOfDifferentFieldsCommute := by
  refine ⟨fun i j s hi hj hdisjoint => execAll_setters_comm hi hj hdisjoint s, ?_⟩
  intro i j s t u _ hj h hu p hw
  obtain ⟨m, -, ht⟩ := execAll_pair_next h
  exact samePart_of_exec_setter hj ht hu hw

end Sys2Proof.Hazards
end
